-- ==== Sys2Proof/Word.lean ====
section
/-! DEFINITION. The words of the NPE: bytes and 16-bit values, all unsigned (00_scope.md R7). -/

namespace Sys2Proof

/-- A byte, 8 bits unsigned (00_scope.md R7). -/
abbrev Byte := BitVec 8

/-- A 16-bit unsigned value: a numeric command argument (`ARG_W` = 16) or a packed colour (00_scope.md R6). -/
abbrev Half := BitVec 16

end Sys2Proof
end

