-- ==== Sys2Proof/Config.lean ====
section
/-! DEFINITION. What an implementation fixes: the synthesis-time parameters of 00_scope.md R6, the fixed
constants, and the one free value. -/

namespace Sys2Proof.Config

/-- The open parameters of 00_scope.md R6 and 92_eei_decisions.md D2, D14, which a model takes as arguments.
`bufCap = none` is `BUF_CAP = ∞`. -/
structure Params where
  /-- `BUF_CAP`, capacity of ACC in bytes, terminator included. -/
  bufCap : Option Nat
  /-- `COMP_MAX`, longest component reference ENC accepts. -/
  compMax : Nat
  /-- `TEXT_MAX`, longest text ENC accepts. -/
  textMax : Nat
deriving DecidableEq, Repr

/-- The legal values: `BUF_CAP ≥ 7` or `∞`, `COMP_MAX ≥ 1`, `TEXT_MAX ≥ 0` (92 D2, D14; log 19). -/
def Params.legal (p : Params) : Bool :=
  (match p.bufCap with
   | none => true
   | some n => decide (7 ≤ n)) && decide (1 ≤ p.compMax)

/-- `n < bound`, where no bound is `∞`. -/
def below (bound : Option Nat) (n : Nat) : Bool :=
  match bound with
  | none => true
  | some m => decide (n < m)

/-- `n ≤ bound`, where no bound is `∞`. -/
def within (bound : Option Nat) (n : Nat) : Bool :=
  match bound with
  | none => true
  | some m => decide (n ≤ m)

/-- `FRAME_MAX = BUF_CAP - 3` (00_scope.md R6). -/
def Params.frameMax (p : Params) : Option Nat := p.bufCap.map (· - 3)

/-- `LW = ceil(log2(max(BUF_CAP, COMP_MAX, TEXT_MAX) + 1))`, the bits needed for that maximum; unbounded
when `BUF_CAP = ∞` (00_scope.md R6; 92 Open parameters). -/
def Params.lw (p : Params) : Option Nat :=
  p.bufCap.map fun n =>
    let m := max n (max p.compMax p.textMax)
    if m = 0 then 0 else Nat.log2 m + 1

/-- `ENC_MAXLEN`, the longest byte list any command produces (10_state.md R22). -/
def Params.encMaxLen (p : Params) : Nat :=
  max 32 (max (p.compMax + p.textMax + 10) (max (2 * p.compMax + 22) (p.textMax + 3)))

/-- `HEX_MAX`, capacity of a hex-colour string port (92 D15). -/
def hexMax : Nat := 8

/-- `TERM`, the terminator byte (00_scope.md R6). -/
def termByte : Byte := 0xFF

/-- `FF3`, the terminator (30_encoding.md R47). -/
def ff3 : List Byte := [0xFF, 0xFF, 0xFF]

/-- The parameters that `State.reset` carries. DESIGN CHOICE (log 3): the spec leaves all three open;
`BUF_CAP = ∞` reproduces NIS exactly (92 D2). No statement rests on these numbers. -/
def resetParams : Params := { bufCap := none, compMax := 32, textMax := 128 }

/-- What `fob_rdata` shows at an index that `FOB[0..fob_len)` does not have: any value (10_state.md R27,
93_implementation_defined.md I2). A free value of the FOB's generation and the index (log 4). -/
opaque freeFobByte : Nat → Nat → Byte

end Sys2Proof.Config
end

