-- ==== Sys2Proof/Syntax.lean ====
section
/-! DEFINITION. The operations of the NPE: one constructor of `Instr` per row of spec/opcode_table.json, and the
operands they take (30_encoding.md R53 to R61). -/

namespace Sys2Proof

/-- A string operand as the port carries it: its length field and the bytes of its array
(30_encoding.md R57). The array is written without the bytes past those the length claims, if they are not
needed (log 12). -/
structure StrArg where
  len : Nat
  bytes : List Byte
deriving DecidableEq, Repr

/-- The colour operand of CIR, CIRS and SETBCO, by `cmd_ckind` (30_encoding.md R60). -/
inductive Colour where
  /-- kind 0, a named token by its index (R61) -/
  | named (cname : BitVec 3)
  /-- kind 1, a packed 16-bit value -/
  | packed (v : Half)
  /-- kind 2, an RGB triplet -/
  | rgb (r g b : Byte)
  /-- kind 3, a hex string: `cmd_chex_len` and the bytes of `cmd_chex` -/
  | hex (len : BitVec 4) (bytes : List Byte)
deriving DecidableEq, Repr

/-- The operations, one per row of spec/opcode_table.json. The frame rows carry the frame's bytes without
the terminator: TOUCH and PAGE_CHANGED the bytes after the tag, OTHER_FRAME the whole frame (log 1). -/
inductive Instr where
  | sendme
  | page (n : Half)
  | setTxt (comp text : StrArg)
  | vis (comp : StrArg) (visible : Bool)
  | cir (x y r : Half) (col : Colour)
  | cirs (x y r : Half) (col : Colour)
  | setBco (comp : StrArg) (col : Colour)
  | click (comp : StrArg)
  | raw (text : StrArg)
  | reserved9
  | reservedA
  | reservedB
  | reservedC
  | reservedD
  | reservedE
  | reservedF
  | ingest (b : Byte)
  | term
  | touch (payload : List Byte)
  | pageChanged (payload : List Byte)
  | otherFrame (frame : List Byte)
  | rgb565 (r g b : Byte)
  | hex565 (len : BitVec 4) (bytes : List Byte)
deriving DecidableEq, Repr

/-- The command descriptor: every `cmd_*` field ENC samples (30_encoding.md R57). -/
structure Descriptor where
  op : BitVec 4
  n : Half
  x : Half
  y : Half
  r : Half
  vis : Bool
  ckind : BitVec 2
  cname : BitVec 3
  cpacked : Half
  cr : Byte
  cg : Byte
  cb : Byte
  chexLen : BitVec 4
  chex : List Byte
  compLen : Nat
  comp : List Byte
  textLen : Nat
  text : List Byte
deriving DecidableEq, Repr

/-- The descriptor with every field zero. -/
def Descriptor.zero : Descriptor :=
  { op := 0, n := 0, x := 0, y := 0, r := 0, vis := false, ckind := 0, cname := 0, cpacked := 0,
    cr := 0, cg := 0, cb := 0, chexLen := 0, chex := [], compLen := 0, comp := [], textLen := 0, text := [] }

/-- What one port carries when it presents an operation: the "words" of this hardware
(10_state.md R26, R28, R29). -/
inductive PortWord where
  /-- the descriptor on `cmd_*` -/
  | descriptor (d : Descriptor)
  /-- bytes offered in order on `rx_data` -/
  | rx (bytes : List Byte)
  /-- `cc_r`, `cc_g`, `cc_b` -/
  | ccRgb (r g b : Byte)
  /-- `cc_hex_len` and `cc_hex` -/
  | ccHex (len : BitVec 4) (bytes : List Byte)
deriving DecidableEq, Repr

end Sys2Proof
end

