-- ==== Sys2Proof/WellFormed.lean ====
section
/-! DEFINITION. Which operations the ports can present: string arrays that fit their ports and hold the bytes
their length fields claim (30_encoding.md R57), frames that can arrive whole (R52), frames under their own tag
(R49). -/

namespace Sys2Proof

/-- No three consecutive 0xFF bytes in `bs` when `r` of them (0, 1 or 2) stand just before it. -/
def noTermFrom : Nat → List Byte → Bool
  | _, [] => true
  | r, b :: bs => if b = Config.termByte then decide (r < 2) && noTermFrom (r + 1) bs else noTermFrom 0 bs

/-- A frame that can reach DEC as one frame: in `F ++ FF3` the first three consecutive 0xFF bytes are the last
three (30_encoding.md R48, R52). -/
def framable (F : List Byte) : Bool := noTermFrom 0 (F ++ [Config.termByte, Config.termByte])

/-- A string operand on a port of `cap` bytes whose length field has `lw` bits (30_encoding.md R57). -/
def StrArg.wf (a : StrArg) (lw : Option Nat) (cap : Nat) : Bool :=
  Config.below (lw.map (2 ^ ·)) a.len && decide (a.bytes.length ≤ cap) &&
    (decide (cap < a.len) || decide (a.len ≤ a.bytes.length))

/-- A hex string on its 8-byte port (30_encoding.md R57; 10_state.md R29). -/
def hexWf (len : BitVec 4) (bytes : List Byte) : Bool :=
  decide (bytes.length ≤ Config.hexMax) && (decide (Config.hexMax < len.toNat) || decide (len.toNat ≤ bytes.length))

/-- A colour operand the descriptor can carry (30_encoding.md R60). -/
def Colour.wf : Colour → Bool
  | .named _ => true
  | .packed _ => true
  | .rgb _ _ _ => true
  | .hex len bytes => hexWf len bytes

/-- A frame whose tag is neither 0x65 nor 0x66, the empty frame among them (42_frame_decoder.md R101). -/
def otherTag : List Byte → Bool
  | [] => true
  | t :: _ => decide (t ≠ 0x65) && decide (t ≠ 0x66)

/-- The operations that the ports of an NPE with parameters `p` can present. -/
def Instr.wf (p : Config.Params) : Instr → Bool
  | .sendme => true
  | .page _ => true
  | .setTxt comp text => comp.wf p.lw p.compMax && text.wf p.lw p.textMax
  | .vis comp _ => comp.wf p.lw p.compMax
  | .cir _ _ _ col => col.wf
  | .cirs _ _ _ col => col.wf
  | .setBco comp col => comp.wf p.lw p.compMax && col.wf
  | .click comp => comp.wf p.lw p.compMax
  | .raw text => text.wf p.lw p.textMax
  | .reserved9 => true
  | .reservedA => true
  | .reservedB => true
  | .reservedC => true
  | .reservedD => true
  | .reservedE => true
  | .reservedF => true
  | .ingest _ => true
  | .term => true
  | .touch payload => framable (0x65 :: payload)
  | .pageChanged payload => framable (0x66 :: payload)
  | .otherFrame frame => otherTag frame && framable frame
  | .rgb565 _ _ _ => true
  | .hex565 len bytes => hexWf len bytes

end Sys2Proof
end

