-- ==== Sys2Proof/Decode.lean ====
section
/-! DEFINITION. What a port presents, read as an operation (30_encoding.md R48, R49, R57 to R60), and the
encoder that writes an operation onto its port. -/

namespace Sys2Proof

/-- Why the bytes on a port are no single operation. -/
inductive DecodeError where
  /-- no byte is offered -/
  | noByte
  /-- the bytes are several operations (a chunk that is not one byte, one terminator or one whole frame) -/
  | severalOperations
deriving DecidableEq, Repr

/-- The colour operand that `cmd_ckind` selects; every kind is legal, and fields it does not select are
ignored (30_encoding.md R60). -/
def decodeColour (d : Descriptor) : Colour :=
  match d.ckind.toNat with
  | 0 => .named d.cname
  | 1 => .packed d.cpacked
  | 2 => .rgb d.cr d.cg d.cb
  | _ => .hex d.chexLen d.chex

/-- The operation that `cmd_op` names; every field it does not read is ignored (30_encoding.md R58). -/
def decodeDescriptor (d : Descriptor) : Instr :=
  match d.op.toNat with
  | 0 => .sendme
  | 1 => .page d.n
  | 2 => .setTxt ⟨d.compLen, d.comp⟩ ⟨d.textLen, d.text⟩
  | 3 => .vis ⟨d.compLen, d.comp⟩ d.vis
  | 4 => .cir d.x d.y d.r (decodeColour d)
  | 5 => .cirs d.x d.y d.r (decodeColour d)
  | 6 => .setBco ⟨d.compLen, d.comp⟩ (decodeColour d)
  | 7 => .click ⟨d.compLen, d.comp⟩
  | 8 => .raw ⟨d.textLen, d.text⟩
  | 9 => .reserved9
  | 10 => .reservedA
  | 11 => .reservedB
  | 12 => .reservedC
  | 13 => .reservedD
  | 14 => .reservedE
  | _ => .reservedF

/-- A decoded frame, read by its tag (30_encoding.md R49). -/
def decodeFrame : List Byte → Instr
  | [] => .otherFrame []
  | t :: rest => if t = 0x65 then .touch rest else if t = 0x66 then .pageChanged rest else .otherFrame (t :: rest)

/-- Bytes offered on `rx_data`, read as one operation: one byte is INGEST; the terminator alone is TERM (it is
also the empty frame, R50, log 8); a framable `F ++ FF3` is the frame `F` (R48). -/
def decodeRx (bs : List Byte) : Except DecodeError Instr :=
  match bs with
  | [] => .error .noByte
  | [b] => .ok (.ingest b)
  | _ =>
    let n := bs.length - 3
    let F := bs.take n
    if bs.drop n = Config.ff3 then
      if F = [] then .ok .term
      else if framable F then .ok (decodeFrame F) else .error .severalOperations
    else .error .severalOperations

/-- What a port presents, as an operation. Total; it rejects by name. -/
def decode : PortWord → Except DecodeError Instr
  | .descriptor d => .ok (decodeDescriptor d)
  | .rx bs => decodeRx bs
  | .ccRgb r g b => .ok (.rgb565 r g b)
  | .ccHex len bytes => .ok (.hex565 len bytes)

/-! ## The encoder -/

/-- The descriptor fields of a colour operand (30_encoding.md R60). -/
def encodeColour (c : Colour) (d : Descriptor) : Descriptor :=
  match c with
  | .named k => { d with ckind := 0, cname := k }
  | .packed v => { d with ckind := 1, cpacked := v }
  | .rgb r g b => { d with ckind := 2, cr := r, cg := g, cb := b }
  | .hex len bytes => { d with ckind := 3, chexLen := len, chex := bytes }

/-- The descriptor with a given `cmd_op` and every other field zero. -/
def Descriptor.ofOp (op : BitVec 4) : Descriptor := { Descriptor.zero with op := op }

/-- The descriptor fields of a component reference (30_encoding.md R57). -/
def Descriptor.withComp (d : Descriptor) (a : StrArg) : Descriptor := { d with compLen := a.len, comp := a.bytes }

/-- The descriptor fields of a text (30_encoding.md R57). -/
def Descriptor.withText (d : Descriptor) (a : StrArg) : Descriptor := { d with textLen := a.len, text := a.bytes }

/-- An operation as its port presents it: a descriptor by R58, one byte, the terminator, a frame followed by
the terminator (R48), or CC's input pins. -/
def encode : Instr → PortWord
  | .sendme => .descriptor (Descriptor.ofOp 0x0)
  | .page n => .descriptor { Descriptor.ofOp 0x1 with n := n }
  | .setTxt comp text => .descriptor (((Descriptor.ofOp 0x2).withComp comp).withText text)
  | .vis comp visible => .descriptor { (Descriptor.ofOp 0x3).withComp comp with vis := visible }
  | .cir x y r col => .descriptor (encodeColour col { Descriptor.ofOp 0x4 with x := x, y := y, r := r })
  | .cirs x y r col => .descriptor (encodeColour col { Descriptor.ofOp 0x5 with x := x, y := y, r := r })
  | .setBco comp col => .descriptor (encodeColour col ((Descriptor.ofOp 0x6).withComp comp))
  | .click comp => .descriptor ((Descriptor.ofOp 0x7).withComp comp)
  | .raw text => .descriptor ((Descriptor.ofOp 0x8).withText text)
  | .reserved9 => .descriptor (Descriptor.ofOp 0x9)
  | .reservedA => .descriptor (Descriptor.ofOp 0xA)
  | .reservedB => .descriptor (Descriptor.ofOp 0xB)
  | .reservedC => .descriptor (Descriptor.ofOp 0xC)
  | .reservedD => .descriptor (Descriptor.ofOp 0xD)
  | .reservedE => .descriptor (Descriptor.ofOp 0xE)
  | .reservedF => .descriptor (Descriptor.ofOp 0xF)
  | .ingest b => .rx [b]
  | .term => .rx Config.ff3
  | .touch payload => .rx (0x65 :: payload ++ Config.ff3)
  | .pageChanged payload => .rx (0x66 :: payload ++ Config.ff3)
  | .otherFrame frame => .rx (frame ++ Config.ff3)
  | .rgb565 r g b => .ccRgb r g b
  | .hex565 len bytes => .ccHex len bytes

/-! ## The words of spec/opcode_table.json -/

/-- The port word that a table word stands for. The table's rows live on different ports and overlap, so the
port is chosen from the width and the value (log 7): no bits, one inbound byte 0x00; 8 bits, a `cmd_op` (0x00 to 0x0F),
a touch or page-changed frame whose operand bytes are zero (tag 0x65, 0x66), or else one inbound byte;
16 bits, the hex port; 24 bits, the terminator, or else `cc_r`, `cc_g`, `cc_b`. -/
def portWordOfTable (nbits w : Nat) : Option PortWord :=
  if 2 ^ nbits ≤ w then none
  else if nbits = 0 then some (.rx [0])
  else if nbits ≤ 8 then
    if w < 16 then some (.descriptor (Descriptor.ofOp (BitVec.ofNat 4 w)))
    else if w = 0x65 then some (.rx ([0x65, 0, 0, 0] ++ Config.ff3))
    else if w = 0x66 then some (.rx ([0x66, 0] ++ Config.ff3))
    else some (.rx [BitVec.ofNat 8 w])
  else if nbits ≤ 16 then some (.ccHex (BitVec.ofNat 4 w) [])
  else if nbits ≤ 24 then
    if w = 0xFFFFFF then some (.rx Config.ff3)
    else some (.ccRgb (BitVec.ofNat 8 w) (BitVec.ofNat 8 (w / 0x100)) (BitVec.ofNat 8 (w / 0x10000)))
  else none

/-- The instruction the decoder reads from a word of spec/opcode_table.json. -/
def decodeTableWord (nbits w : Nat) : Option Instr :=
  match portWordOfTable nbits w with
  | none => none
  | some pw =>
    match decode pw with
    | .ok i => some i
    | .error _ => none

end Sys2Proof
end

