-- ==== Sys2Proof/Machine/State.lean ====
section
/-! DEFINITION. The state of the NPE as plain data: every register of 10_state.md R12 to R24, the two storage
arrays of 20_memory.md R34, the input pins of R25 to R29, and the model's own fields (INVENTORY.md, State). -/

namespace Sys2Proof.Machine

/-- A storage array, as the bytes listed in it: addresses strictly rising, no byte listed that an unlisted
index reads as (log 5). -/
abbrev Memory := List Host.Cell

/-- What an index of ACC or FOB that is not listed reads as. DESIGN CHOICE (log 5): the spec leaves those
contents unspecified and no rule reads them (93_implementation_defined.md I1, I2). -/
def Memory.unlisted : Byte := 0x00

/-- The canonical form: addresses strictly rising, no listed byte equal to an unlisted one. -/
def Memory.wf : Memory → Bool
  | [] => true
  | [(_, v)] => decide (v ≠ Memory.unlisted)
  | (k, v) :: (k', v') :: rest =>
    decide (v ≠ Memory.unlisted) && decide (k < k') && Memory.wf ((k', v') :: rest)

/-- `st` (10_state.md R12). -/
inductive DecMode where
  | idle
  | recv
deriving DecidableEq, Repr

/-- `est` (10_state.md R21). -/
inductive EncMode where
  | idle
  | send
deriving DecidableEq, Repr

/-- An event of one `dec_step` (42_frame_decoder.md R87). -/
inductive DecEvent where
  | receivedData (frame : List Byte)
  | touch (page id state : Option Byte)
  | pageChanged (page : Option Byte)
  | frameDropped
deriving DecidableEq, Repr

/-- An error that a command raises (60_exceptions.md R107). -/
inductive EncError where
  | invalidColorFormat
  | illegalOp
deriving DecidableEq, Repr

/-- DEC's registers and arrays (42_frame_decoder.md R87; 10_state.md R12 to R20). -/
structure DecState where
  /-- R12 -/
  st : DecMode
  /-- R13 -/
  run : BitVec 2
  /-- R14 -/
  acc : Memory
  /-- R14 -/
  cnt : Nat
  /-- R15 -/
  drop : Bool
  /-- R16 -/
  ovfSeen : Bool
  /-- R17 -/
  curPage : Byte
  /-- R17 -/
  curPageV : Bool
  /-- R18 -/
  fob : Memory
  /-- R18 -/
  fobLen : Nat
  /-- the model's own: which contents of FOB these are, for the free value of R27 (log 4) -/
  fobGen : Nat
  /-- R19 -/
  tpPage : Byte
  /-- R19 -/
  tpId : Byte
  /-- R19 -/
  tpState : Byte
  /-- R19: bit 0 page, bit 1 componentId, bit 2 state -/
  tpFv : BitVec 3
  /-- R20 -/
  pgPage : Byte
  /-- R20 -/
  pgFv : Bool
deriving DecidableEq, Repr

/-- DEC's event pulses (10_state.md R24). What their ports show with `rst` = 1, before the edge, is log 20. -/
structure EvPulses where
  rd : Bool
  touch : Bool
  page : Bool
  drop : Bool
deriving DecidableEq, Repr

/-- ENC's registers (10_state.md R21, R23). -/
structure EncState where
  /-- R21 -/
  est : EncMode
  /-- R21 -/
  eq : List Byte
  /-- R21 -/
  eidx : Nat
  /-- R23 -/
  errCode : BitVec 2
  /-- R23 -/
  errV : Bool
deriving DecidableEq, Repr

/-- The levels on the input pins in one cycle (10_state.md R25 to R29). `rx` lists the bytes offered: none when
`rx_valid` = 0, one when `rx_valid` = 1; a longer list is a transport chunk, one byte on each of as many
consecutive edges, the other pins being those of the last of these edges, and `rst` covering all of them
(log 6). `fobRaddr` is a natural number for every `BUF_CAP`, where R27 gives the pin LW bits: DESIGN CHOICE
(log 13). -/
structure Pins where
  rst : Bool
  rx : List Byte
  cmdValid : Bool
  cmd : Descriptor
  txReady : Bool
  ccR : Byte
  ccG : Byte
  ccB : Byte
  ccHexLen : BitVec 4
  ccHex : List Byte
  fobRaddr : Nat
deriving DecidableEq, Repr

/-- Nothing driven: no reset, no byte, no command, the transport not ready, every data pin zero. -/
def Pins.idle : Pins :=
  { rst := false, rx := [], cmdValid := false, cmd := Descriptor.zero, txReady := false,
    ccR := 0, ccG := 0, ccB := 0, ccHexLen := 0, ccHex := [], fobRaddr := 0 }

/-- The machine in one cycle: the registers as the last rising edge left them, the levels on the input pins,
and the levels the environment will drive in the cycles that follow (log 2). -/
structure State where
  params : Config.Params
  dec : DecState
  pulses : EvPulses
  enc : EncState
  pins : Pins
  sched : List Pins
deriving DecidableEq, Repr

/-- Why the machine stops. Both faults are safe: they stop the model where the spec says no access is ever
issued (20_memory.md R35, log 11), and no step from any state raises them (Obligations.EveryInstructionAnswersNext). -/
inductive Fault where
  /-- An access to an index of ACC that does not exist. Raised by the storage primitives of Machine/Ops.lean. Safe. -/
  | accIndex (i : Nat)
  /-- A write to an index of FOB that does not exist. Raised by the storage primitives of Machine/Ops.lean. Safe. -/
  | fobIndex (i : Nat)
deriving DecidableEq, Repr

/-- Why the model gives an instruction no meaning. -/
inductive Refusal where
  /-- The instruction of this mnemonic is not modelled. Raised by an arm of exec alone; no arm raises it. Safe. -/
  | notModelled (mnemonic : String)
deriving DecidableEq, Repr

/-- DEC's reset values (10_state.md R12 to R20). -/
def DecState.reset : DecState :=
  { st := .idle, run := 0, acc := [], cnt := 0, drop := false, ovfSeen := false,
    curPage := 0x00, curPageV := false, fob := [], fobLen := 0, fobGen := 0,
    tpPage := 0x00, tpId := 0x00, tpState := 0x00, tpFv := 0, pgPage := 0x00, pgFv := false }

/-- No pulse (10_state.md R24). -/
def EvPulses.none : EvPulses := { rd := false, touch := false, page := false, drop := false }

/-- ENC's reset values (10_state.md R21, R23). -/
def EncState.reset : EncState :=
  { est := .idle, eq := [], eidx := 0, errCode := 0, errV := false }

/-- The machine with parameters `p` right after reset, nothing driven on its pins (70_reset_and_hazards.md R122). -/
def State.resetOf (p : Config.Params) : State :=
  { params := p, dec := DecState.reset, pulses := EvPulses.none, enc := EncState.reset,
    pins := Pins.idle, sched := [] }

/-- The machine right after reset (70_reset_and_hazards.md R122), with the parameters of log 3. -/
def State.reset : State := State.resetOf Config.resetParams

end Sys2Proof.Machine
end

