-- ==== Sys2Proof/Machine/Flags.lean ====
section
/-! DEFINITION. The status bits that operations compute: field-present bits, event pulses, error codes. -/

namespace Sys2Proof.Machine

/-- `tp_fv`: bit 0 page, bit 1 componentId, bit 2 state (10_state.md R19; 42_frame_decoder.md R99). -/
def touchPresent (page id state : Option Byte) : BitVec 3 :=
  BitVec.ofBool state.isSome ++ BitVec.ofBool id.isSome ++ BitVec.ofBool page.isSome

/-- `val(opt)`: an absent field's register is 0x00 (42_frame_decoder.md R98). -/
def fieldValue (f : Option Byte) : Byte := f.getD 0x00

/-- The run counter after a byte (42_frame_decoder.md R91). -/
def countTerm (run : BitVec 2) (b : Byte) : BitVec 2 := if b = Config.termByte then run + 1 else 0

def DecEvent.isReceivedData : DecEvent → Bool
  | .receivedData _ => true
  | _ => false

def DecEvent.isTouch : DecEvent → Bool
  | .touch _ _ _ => true
  | _ => false

def DecEvent.isPageChanged : DecEvent → Bool
  | .pageChanged _ => true
  | _ => false

def DecEvent.isFrameDropped : DecEvent → Bool
  | .frameDropped => true
  | _ => false

/-- Each pulse is 1 if the step's events contain the matching event, and 0 otherwise (42_frame_decoder.md R104). -/
def pulsesOf (evs : List DecEvent) : EvPulses :=
  { rd := evs.any DecEvent.isReceivedData
    touch := evs.any DecEvent.isTouch
    page := evs.any DecEvent.isPageChanged
    drop := evs.any DecEvent.isFrameDropped }

/-- `ERR_NONE` (10_state.md R23). -/
def errNone : BitVec 2 := 0

/-- The code of an error (10_state.md R23; 60_exceptions.md R107). -/
def EncError.code : EncError → BitVec 2
  | .invalidColorFormat => 1
  | .illegalOp => 2

end Sys2Proof.Machine
end

