-- ==== Sys2Proof/Machine/Operands.lean ====
section
/-! DEFINITION. Operand forms: the colour codec's functions, decimal and colour spellings, string operands. The
byte values of characters are ASCII (00_scope.md R7; 93_implementation_defined.md G1 to G3). -/

namespace Sys2Proof.Machine

/-- `cc_rgb565(r, g, b)` = `{r[7:3], g[7:2], b[7:3]}` (40_color_codec.md R64). -/
def ccRgb565 (r g b : Byte) : Half := r.extractLsb' 3 5 ++ g.extractLsb' 2 6 ++ b.extractLsb' 3 5

/-- `hexval(c)` (40_color_codec.md R66). -/
def hexval (c : Byte) : Option Byte :=
  if 0x30 ≤ c ∧ c ≤ 0x39 then some (c - 0x30)
  else if 0x61 ≤ c ∧ c ≤ 0x66 then some (c - 0x61 + 10)
  else if 0x41 ≤ c ∧ c ≤ 0x46 then some (c - 0x41 + 10)
  else none

/-- Two hex digits as one byte (40_color_codec.md R65). -/
def hexByte (hi lo : Byte) : Option Byte :=
  match hexval hi, hexval lo with
  | some h, some l => some (16 * h + l)
  | _, _ => none

/-- `cc_hex565(s)`: `#` then exactly six hex digits, else `InvalidColorFormat` (40_color_codec.md R65). -/
def ccHex565 (s : List Byte) : Except EncError Half :=
  match s with
  | [h, r1, r0, g1, g0, b1, b0] =>
    if h = 0x23 then
      match hexByte r1 r0, hexByte g1 g0, hexByte b1 b0 with
      | some r, some g, some b => .ok (ccRgb565 r g b)
      | _, _, _ => .error .invalidColorFormat
    else .error .invalidColorFormat
  | _ => .error .invalidColorFormat

/-- `cc_hex565` of the string on an 8-byte hex port; a length above `HEX_MAX` is `InvalidColorFormat`
(10_state.md R29; 30_encoding.md R59). -/
def hexPort565 (len : BitVec 4) (bytes : List Byte) : Except EncError Half :=
  if Config.hexMax < len.toNat then .error .invalidColorFormat else ccHex565 (bytes.take len.toNat)

/-- The ASCII byte of a decimal digit (41_command_encoder.md R70). -/
def digit (k : Nat) : Byte := BitVec.ofNat 8 (0x30 + k)

/-- Up to `fuel` decimal digits of `v`, most significant first, no leading zero. -/
def decDigits : Nat → Nat → List Byte
  | 0, _ => []
  | fuel + 1, v => if v < 10 then [digit v] else decDigits fuel (v / 10) ++ [digit (v % 10)]

/-- `dec(v)`, at most five digits for a 16-bit value (41_command_encoder.md R70). -/
def decSpelling (v : Half) : List Byte := decDigits 5 v.toNat

/-- The named colour tokens as ASCII (30_encoding.md R61). -/
def colourName (k : BitVec 3) : List Byte :=
  match k.toNat with
  | 0 => [0x42, 0x4C, 0x41, 0x43, 0x4B]
  | 1 => [0x42, 0x4C, 0x55, 0x45]
  | 2 => [0x42, 0x52, 0x4F, 0x57, 0x4E]
  | 3 => [0x47, 0x52, 0x45, 0x45, 0x4E]
  | 4 => [0x59, 0x45, 0x4C, 0x4C, 0x4F, 0x57]
  | 5 => [0x52, 0x45, 0x44]
  | 6 => [0x47, 0x52, 0x41, 0x59]
  | _ => [0x57, 0x48, 0x49, 0x54, 0x45]

/-- `spell_colour(d)` (41_command_encoder.md R71). -/
def spellColour : Colour → Except EncError (List Byte)
  | .named k => .ok (colourName k)
  | .packed v => .ok (decSpelling v)
  | .rgb r g b => .ok (decSpelling (ccRgb565 r g b))
  | .hex len bytes =>
    match hexPort565 len bytes with
    | .ok v => .ok (decSpelling v)
    | .error e => .error e

/-- The string a string operand carries: the first `len` bytes of its array (30_encoding.md R57). -/
def stringValue (a : StrArg) : List Byte := a.bytes.take a.len

/-- A string operand, or `IllegalOp` when its length field exceeds the port (30_encoding.md R59). -/
def readString (max : Nat) (a : StrArg) : Except EncError (List Byte) :=
  if max < a.len then .error .illegalOp else .ok (stringValue a)

/-- The ASCII byte of a boolean argument (30_encoding.md R54). -/
def boolSpelling (v : Bool) : Byte := if v then 0x31 else 0x30

end Sys2Proof.Machine
end

