-- ==== Sys2Proof/Machine/Ops.lean ====
section
/-! DEFINITION. The shared operations: storage access, the parts of `dec_step`, accepting a command, raising an
error, sending a byte, the edges around them. -/

namespace Sys2Proof.Machine

/-! ## Storage (20_memory.md R34, R35) -/

/-- The byte at an index of an array. -/
def memRead : Memory → Nat → Byte
  | [], _ => Memory.unlisted
  | (k, v) :: rest, a => if k = a then v else memRead rest a

/-- The array with one byte stored; the canonical form is kept. -/
def memWrite : Memory → Nat → Byte → Memory
  | [], a, b => if b = Memory.unlisted then [] else [(a, b)]
  | (k, v) :: rest, a, b =>
    if a < k then (if b = Memory.unlisted then (k, v) :: rest else (a, b) :: (k, v) :: rest)
    else if a = k then (if b = Memory.unlisted then rest else (a, b) :: rest)
    else (k, v) :: memWrite rest a b

/-- The array with a list of bytes stored from an index on. -/
def memWriteList (m : Memory) (a : Nat) : List Byte → Memory
  | [] => m
  | b :: bs => memWriteList (memWrite m a b) (a + 1) bs

/-- The first `n` bytes of an array. -/
def memPrefix (m : Memory) (n : Nat) : List Byte := (List.range n).map (memRead m)

/-- `MemWrite(ACC:i, 1, b)`; an index that ACC does not have faults (20_memory.md R35). -/
def accWrite (p : Config.Params) (d : DecState) (i : Nat) (b : Byte) : Except Fault DecState :=
  if Config.below p.bufCap i then .ok { d with acc := memWrite d.acc i b } else .error (.accIndex i)

/-- `[MemRead(ACC:i, 1) for i in 0..n)`; an index that ACC does not have faults (20_memory.md R35). -/
def accPrefix (p : Config.Params) (d : DecState) (n : Nat) : Except Fault (List Byte) :=
  if Config.within p.bufCap n then .ok (memPrefix d.acc n) else .error (.accIndex (n - 1))

/-- `for i in 0..len(F): MemWrite(FOB:i, 1, F[i])` and `fob_len <- len(F)`; an index that FOB does not have
faults (20_memory.md R35; 42_frame_decoder.md R95). -/
def fobStore (p : Config.Params) (d : DecState) (F : List Byte) : Except Fault DecState :=
  if Config.within p.frameMax F.length then
    .ok { d with fob := memWriteList d.fob 0 F, fobLen := F.length, fobGen := d.fobGen + 1 }
  else .error (.fobIndex (F.length - 1))

/-! ## The frame decoder (42_frame_decoder.md) -/

/-- A byte accepted in IDLE first moves DEC to RECV with an empty buffer (R90). -/
def enterFrame (d : DecState) : DecState :=
  match d.st with
  | .idle => { d with st := .recv, cnt := 0, run := 0, drop := false }
  | .recv => d

/-- The byte is appended while the buffer has room (R92), and discarded with the frame once it has none (R93). -/
def accumulate (p : Config.Params) (d : DecState) (b : Byte) : Except Fault DecState :=
  if Config.below p.bufCap d.cnt then
    match accWrite p d d.cnt b with
    | .error f => .error f
    | .ok d' => .ok { d' with cnt := d.cnt + 1 }
  else .ok { d with drop := true, ovfSeen := true }

/-- `touch(F)` (R99). -/
def classifyTouch (F : List Byte) (d : DecState) : DecState × List DecEvent :=
  ({ d with
      tpPage := fieldValue F[1]?, tpId := fieldValue F[2]?, tpState := fieldValue F[3]?
      tpFv := touchPresent F[1]? F[2]? F[3]? },
    [.touch F[1]? F[2]? F[3]?])

/-- `page_changed(F)`: an absent page leaves `cur_page` and `cur_page_v` (R100). -/
def classifyPage (F : List Byte) (d : DecState) : DecState × List DecEvent :=
  ({ d with
      pgPage := fieldValue F[1]?, pgFv := F[1]?.isSome
      curPage := F[1]?.getD d.curPage, curPageV := F[1]?.isSome || d.curPageV },
    [.pageChanged F[1]?])

/-- `classify(F)` (R98, R101). -/
def classify (F : List Byte) (d : DecState) : DecState × List DecEvent :=
  match F with
  | [] => (d, [])
  | t :: _ =>
    if t = 0x65 then classifyTouch F d
    else if t = 0x66 then classifyPage F d
    else (d, [])

/-- Every completion returns to IDLE with an empty buffer (R96). -/
def toIdle (d : DecState) : DecState := { d with st := .idle, cnt := 0, run := 0, drop := false }

/-- The completion of the frame in ACC, terminator included: a dropped frame emits FrameDropped alone (R97);
any other is stripped (R94), delivered and classified (R95). -/
def complete (p : Config.Params) (d : DecState) : Except Fault (DecState × List DecEvent) :=
  if d.drop then .ok (toIdle d, [.frameDropped])
  else
    match accPrefix p d (d.cnt - 3) with
    | .error f => .error f
    | .ok F =>
      match fobStore p d F with
      | .error f => .error f
      | .ok d1 => .ok (toIdle (classify F d1).1, .receivedData F :: (classify F d1).2)

/-- `dec_step(S, b)` (R88). -/
def decStep (p : Config.Params) (d : DecState) (b : Byte) : Except Fault (DecState × List DecEvent) :=
  match accumulate p (enterFrame d) b with
  | .error f => .error f
  | .ok d1 =>
    if countTerm (enterFrame d).run b = 3 then complete p d1
    else .ok ({ d1 with run := countTerm (enterFrame d).run b }, [])

/-- `dec_ingest(S, chunk)`, the left fold of `dec_step` (R89). -/
def decIngest (p : Config.Params) (d : DecState) : List Byte → Except Fault (DecState × List DecEvent)
  | [] => .ok (d, [])
  | b :: rest =>
    match decStep p d b with
    | .error f => .error f
    | .ok (d1, e1) =>
      match decIngest p d1 rest with
      | .error f => .error f
      | .ok (d2, e2) => .ok (d2, e1 ++ e2)

/-- One edge that accepts a byte: `dec_step`, and each pulse set by the step's events (R104). -/
def State.acceptByte (s : State) (b : Byte) : Host.Outcome State Fault Refusal :=
  match decStep s.params s.dec b with
  | .error f => .fault f
  | .ok (d, evs) => .next { s with dec := d, pulses := pulsesOf evs }

/-- As many consecutive edges as there are bytes, one byte accepted at each (R89). -/
def State.acceptBytes (s : State) : List Byte → Host.Outcome State Fault Refusal
  | [] => .next s
  | b :: bs =>
    match s.acceptByte b with
    | .next t => t.acceptBytes bs
    | .fault f => .fault f
    | .refused r => .refused r

/-! ## The command encoder (41_command_encoder.md section 3) -/

/-- Taking an error, the NPE's only exception entry: `err_code` and `err_v`, nothing else (60_exceptions.md
R116). There is no return: the pulse falls at the next edge (`beginEdge`), and the next accepted command
overwrites the code (R117). -/
def State.raiseError (s : State) (e : EncError) : State :=
  { s with enc := { s.enc with errCode := e.code, errV := true } }

/-- A command offered at an edge: accepted in E_IDLE, its bytes queued or its error raised (R81); in E_SEND
`cmd_ready` = 0 and it waits (R84, log 14). -/
def State.acceptCommand (s : State) (r : Except EncError (List Byte)) : Host.Outcome State Fault Refusal :=
  match s.enc.est with
  | .send => .next s
  | .idle =>
    match r with
    | .error e => .next (s.raiseError e)
    | .ok L => .next { s with enc := { est := .send, eq := L, eidx := 0, errCode := errNone, errV := false } }

/-- A byte sent: the next one, or E_IDLE after the last (R82). -/
def State.sendByte (s : State) : State :=
  if s.enc.eidx + 1 = s.enc.eq.length then { s with enc := { s.enc with est := .idle, eq := [], eidx := 0 } }
  else { s with enc := { s.enc with eidx := s.enc.eidx + 1 } }

/-! ## Edges -/

/-- What every edge outside reset does before the operations it accepts: every pulse falls
(10_state.md R24; 41_command_encoder.md R81; 42_frame_decoder.md R104; log 15). -/
def State.beginEdge (s : State) : State :=
  { s with pulses := EvPulses.none, enc := { s.enc with errV := false } }

/-- An edge with `rst` = 1: every register takes its reset value (70_reset_and_hazards.md R121). -/
def State.resetEdge (s : State) : State :=
  { s with dec := { DecState.reset with fobGen := s.dec.fobGen + 1 }, pulses := EvPulses.none, enc := EncState.reset }

/-- The next cycle: the environment drives what its schedule lists, and nothing once that is used up (log 2). -/
def State.nextCycle (s : State) : State :=
  { s with pins := s.sched.headD Pins.idle, sched := s.sched.tail }

end Sys2Proof.Machine
end

