-- ==== Sys2Proof/Machine/Ports.lean ====
section
/-! DEFINITION. The output ports, as functions of the registers and of the input pins (10_state.md R26 to R30),
and what one edge sends and emits. A port that is a register alone (`dec_busy` is `st`, the pulses, `fob_len`,
`tp_*`, `pg_*`, `cur_page*`, `ovf_seen`, `enc_busy`, `err_v`, `err_code`) is read as that field. DESIGN CHOICE
(log 20), unsafe: in a cycle with `rst` = 1, before its edge, these ports show the registers as they are held, where
93_implementation_defined.md I4 may be read to allow any value. -/

namespace Sys2Proof.Machine

/-- `rx_ready` (R26). -/
def State.rxReady (s : State) : Bool := !s.pins.rst

/-- `dec_busy` (R27). With `rst` = 1, before the edge, it shows the held register: DESIGN CHOICE (log 20). -/
def State.decBusy (s : State) : Bool := decide (s.dec.st = .recv)

/-- `FOB[i]` at the host's read port; any value when `i ≥ fob_len` (R27, log 4). -/
def fobAt (d : DecState) (i : Nat) : Byte :=
  if i < d.fobLen then memRead d.fob i else Config.freeFobByte d.fobGen i

/-- `fob_rdata` (R27). With `rst` = 1, before the edge, it shows the held frame: DESIGN CHOICE (log 20). -/
def State.fobRdata (s : State) : Byte := fobAt s.dec s.pins.fobRaddr

/-- `cmd_ready` (R28). -/
def State.cmdReady (s : State) : Bool := decide (s.enc.est = .idle) && !s.pins.rst

/-- `tx_valid` (R28). -/
def State.txValid (s : State) : Bool := decide (s.enc.est = .send) && !s.pins.rst

/-- `tx_data` (R28). -/
def State.txData (s : State) : Byte := if s.txValid then s.enc.eq.getD s.enc.eidx 0x00 else 0x00

/-- `enc_busy` (R28). With `rst` = 1, before the edge, it shows the held register: DESIGN CHOICE (log 20). -/
def State.encBusy (s : State) : Bool := decide (s.enc.est = .send)

/-- `cc_rgb565` (R29). -/
def State.ccRgb565Out (s : State) : Half := ccRgb565 s.pins.ccR s.pins.ccG s.pins.ccB

/-- `cc_hex_err` (R29). -/
def State.ccHexErr (s : State) : Bool :=
  match hexPort565 s.pins.ccHexLen s.pins.ccHex with
  | .ok _ => false
  | .error _ => true

/-- `cc_hex565`, 0x0000 when `cc_hex_err` = 1 (R29). -/
def State.ccHex565Out (s : State) : Half :=
  match hexPort565 s.pins.ccHexLen s.pins.ccHex with
  | .ok v => v
  | .error _ => 0x0000

/-- A byte is sent at the edge that ends this cycle (R28). -/
def State.txFire (s : State) : Bool := s.txValid && s.pins.txReady

/-- The bytes sent at the edge that ends this cycle: none or one. -/
def State.sentBytes (s : State) : List Byte := if s.txFire then [s.txData] else []

/-- The bytes of the command in progress that are not yet sent (R32). -/
def State.pendingBytes (s : State) : List Byte := s.enc.eq.drop s.enc.eidx

/-- The events that DEC emits at the edge that ends this cycle, in order (60_exceptions.md R114); none in reset. -/
def State.emittedEvents (s : State) : List DecEvent :=
  if s.pins.rst then []
  else
    match decIngest s.params s.dec s.pins.rx with
    | .ok (_, evs) => evs
    | .error _ => []

/-- What every edge outside reset does after the operations it accepts (`t`): the byte that was offered and taken
in the cycle (`s`) is sent (41_command_encoder.md R82), and the next cycle begins. -/
def State.endEdge (s t : State) : State := (if s.txFire then t.sendByte else t).nextCycle

/-- The pins as one operation alone is presented: no reset, no byte, no command, no send. -/
def Pins.quiet (p : Pins) : Pins := { p with rst := false, rx := [], cmdValid := false, txReady := false }

/-- The machine with one operation on its port and no other input. A command needs ENC in E_IDLE, so a
command in progress is taken away (log 9). -/
def State.present (s : State) : PortWord → State
  | .descriptor d =>
    { s with
      pins := { s.pins.quiet with cmdValid := true, cmd := d }
      enc := { s.enc with est := .idle, eq := [], eidx := 0 } }
  | .rx bs => { s with pins := { s.pins.quiet with rx := bs } }
  | .ccRgb r g b => { s with pins := { s.pins.quiet with ccR := r, ccG := g, ccB := b } }
  | .ccHex len bytes => { s with pins := { s.pins.quiet with ccHexLen := len, ccHex := bytes } }

end Sys2Proof.Machine
end

