-- ==== Sys2Proof/Machine/Codec.lean ====
section
/-! DEFINITION. The colour codec's operations. CC is combinational: an operation drives its input pins, and its
result stands on its output port in the same cycle (40_color_codec.md R64 to R67; 10_state.md R29; log 10). -/

namespace Sys2Proof.Machine

/-- RGB565 (R64): the result is `ccRgb565Out`. -/
def execRgb565 (r g b : Byte) (s : State) : Host.Outcome State Fault Refusal :=
  .next { s with pins := { s.pins with ccR := r, ccG := g, ccB := b } }

/-- HEX565 (R65): the result is `ccHex565Out`, its error `ccHexErr`. -/
def execHex565 (len : BitVec 4) (bytes : List Byte) (s : State) : Host.Outcome State Fault Refusal :=
  .next { s with pins := { s.pins with ccHexLen := len, ccHex := bytes } }

end Sys2Proof.Machine
end

