-- ==== Sys2Proof/Machine/Decoder.lean ====
section
/-! DEFINITION. The frame decoder's operations: a byte, the terminator, and the three kinds of frame, each as
the bytes it has on the wire (42_frame_decoder.md R88, R89; 30_encoding.md R47 to R49; log 1). -/

namespace Sys2Proof.Machine

/-- INGEST: one accepted byte (R88). -/
def execIngest (b : Byte) (s : State) : Host.Outcome State Fault Refusal := s.acceptByte b

/-- TERM: three accepted bytes 0xFF (R47). -/
def execTerm (s : State) : Host.Outcome State Fault Refusal := s.acceptBytes Config.ff3

/-- TOUCH: a frame tagged 0x65 and its terminator (R48, R99). -/
def execTouch (payload : List Byte) (s : State) : Host.Outcome State Fault Refusal :=
  s.acceptBytes (0x65 :: payload ++ Config.ff3)

/-- PAGE_CHANGED: a frame tagged 0x66 and its terminator (R48, R100). -/
def execPageChanged (payload : List Byte) (s : State) : Host.Outcome State Fault Refusal :=
  s.acceptBytes (0x66 :: payload ++ Config.ff3)

/-- OTHER_FRAME: any other frame, the empty one among them, and its terminator (R48, R101). -/
def execOtherFrame (frame : List Byte) (s : State) : Host.Outcome State Fault Refusal :=
  s.acceptBytes (frame ++ Config.ff3)

end Sys2Proof.Machine
end

