-- ==== Sys2Proof/Machine/Encoder.lean ====
section
/-! DEFINITION. The command encoder's operations: the bytes of each (41_command_encoder.md R72 to R80) and its
acceptance (R81). Literal text is written as its ASCII bytes, as in the rules' worked examples. -/

namespace Sys2Proof.Machine

/-- One comma. -/
def comma : List Byte := [0x2C]

/-- `sendme` (R72). -/
def encodeSendme : List Byte := [0x73, 0x65, 0x6E, 0x64, 0x6D, 0x65] ++ Config.ff3

/-- `page {n}` (R73). -/
def encodePage (n : Half) : List Byte := [0x70, 0x61, 0x67, 0x65, 0x20] ++ decSpelling n ++ Config.ff3

/-- `{component}.txt="{text}"` (R74). -/
def encodeSetTxt (p : Config.Params) (comp text : StrArg) : Except EncError (List Byte) :=
  match readString p.compMax comp with
  | .error e => .error e
  | .ok c =>
    match readString p.textMax text with
    | .error e => .error e
    | .ok t => .ok (c ++ [0x2E, 0x74, 0x78, 0x74, 0x3D, 0x22] ++ t ++ [0x22] ++ Config.ff3)

/-- `vis {component},{1|0}` (R75). -/
def encodeVis (p : Config.Params) (comp : StrArg) (visible : Bool) : Except EncError (List Byte) :=
  match readString p.compMax comp with
  | .error e => .error e
  | .ok c => .ok ([0x76, 0x69, 0x73, 0x20] ++ c ++ comma ++ [boolSpelling visible] ++ Config.ff3)

/-- `{x},{y},{r},{color}` after a command word (R76, R77). -/
def encodeCircle (word : List Byte) (x y r : Half) (col : Colour) : Except EncError (List Byte) :=
  match spellColour col with
  | .error e => .error e
  | .ok k =>
    .ok (word ++ decSpelling x ++ comma ++ decSpelling y ++ comma ++ decSpelling r ++ comma ++ k ++ Config.ff3)

/-- `cir {x},{y},{r},{color}` (R76). -/
def encodeCir (x y r : Half) (col : Colour) : Except EncError (List Byte) :=
  encodeCircle [0x63, 0x69, 0x72, 0x20] x y r col

/-- `cirs {x},{y},{r},{color}` (R77). -/
def encodeCirs (x y r : Half) (col : Colour) : Except EncError (List Byte) :=
  encodeCircle [0x63, 0x69, 0x72, 0x73, 0x20] x y r col

/-- `{component}.bco={color}`, then `ref {component}` (R78). -/
def encodeSetBco (p : Config.Params) (comp : StrArg) (col : Colour) : Except EncError (List Byte) :=
  match readString p.compMax comp with
  | .error e => .error e
  | .ok c =>
    match spellColour col with
    | .error e => .error e
    | .ok k =>
      .ok (c ++ [0x2E, 0x62, 0x63, 0x6F, 0x3D] ++ k ++ Config.ff3 ++ [0x72, 0x65, 0x66, 0x20] ++ c ++ Config.ff3)

/-- `click {component},1`, then `click {component},0` (R79). -/
def encodeClick (p : Config.Params) (comp : StrArg) : Except EncError (List Byte) :=
  match readString p.compMax comp with
  | .error e => .error e
  | .ok c =>
    .ok ([0x63, 0x6C, 0x69, 0x63, 0x6B, 0x20] ++ c ++ [0x2C, 0x31] ++ Config.ff3 ++
      [0x63, 0x6C, 0x69, 0x63, 0x6B, 0x20] ++ c ++ [0x2C, 0x30] ++ Config.ff3)

/-- `{text}` (R80). -/
def encodeRaw (p : Config.Params) (text : StrArg) : Except EncError (List Byte) :=
  match readString p.textMax text with
  | .error e => .error e
  | .ok t => .ok (t ++ Config.ff3)

/-- `enc_encode(d)`: the complete byte list of a descriptor, or its error (R69). -/
def encEncode (p : Config.Params) (d : Descriptor) : Except EncError (List Byte) :=
  match d.op.toNat with
  | 0 => .ok encodeSendme
  | 1 => .ok (encodePage d.n)
  | 2 => encodeSetTxt p ⟨d.compLen, d.comp⟩ ⟨d.textLen, d.text⟩
  | 3 => encodeVis p ⟨d.compLen, d.comp⟩ d.vis
  | 4 => encodeCir d.x d.y d.r (decodeColour d)
  | 5 => encodeCirs d.x d.y d.r (decodeColour d)
  | 6 => encodeSetBco p ⟨d.compLen, d.comp⟩ (decodeColour d)
  | 7 => encodeClick p ⟨d.compLen, d.comp⟩
  | 8 => encodeRaw p ⟨d.textLen, d.text⟩
  | _ => .error .illegalOp

/-- The bytes that ENC queues at the edge that ends this cycle: those of the command it accepts, none when it
accepts none or an error (41_command_encoder.md R81). -/
def State.queuedBytes (s : State) : List Byte :=
  if s.cmdReady && s.pins.cmdValid then
    match encEncode s.params s.pins.cmd with
    | .ok L => L
    | .error _ => []
  else []

/-! ## The meanings: each command is offered at an edge with its bytes or its error (R81) -/

/-- SENDME (R72). -/
def execSendme (s : State) : Host.Outcome State Fault Refusal := s.acceptCommand (.ok encodeSendme)

/-- PAGE (R73). -/
def execPage (n : Half) (s : State) : Host.Outcome State Fault Refusal := s.acceptCommand (.ok (encodePage n))

/-- SETTXT (R74). -/
def execSetTxt (comp text : StrArg) (s : State) : Host.Outcome State Fault Refusal :=
  s.acceptCommand (encodeSetTxt s.params comp text)

/-- VIS (R75). -/
def execVis (comp : StrArg) (visible : Bool) (s : State) : Host.Outcome State Fault Refusal :=
  s.acceptCommand (encodeVis s.params comp visible)

/-- CIR (R76). -/
def execCir (x y r : Half) (col : Colour) (s : State) : Host.Outcome State Fault Refusal :=
  s.acceptCommand (encodeCir x y r col)

/-- CIRS (R77). -/
def execCirs (x y r : Half) (col : Colour) (s : State) : Host.Outcome State Fault Refusal :=
  s.acceptCommand (encodeCirs x y r col)

/-- SETBCO (R78). -/
def execSetBco (comp : StrArg) (col : Colour) (s : State) : Host.Outcome State Fault Refusal :=
  s.acceptCommand (encodeSetBco s.params comp col)

/-- CLICK (R79). -/
def execClick (comp : StrArg) (s : State) : Host.Outcome State Fault Refusal :=
  s.acceptCommand (encodeClick s.params comp)

/-- RAW (R80). -/
def execRaw (text : StrArg) (s : State) : Host.Outcome State Fault Refusal :=
  s.acceptCommand (encodeRaw s.params text)

/-- `cmd_op` 0x9 raises `IllegalOp` (30_encoding.md R59; 60_exceptions.md R109). -/
def execReserved9 (s : State) : Host.Outcome State Fault Refusal := s.acceptCommand (.error .illegalOp)

/-- `cmd_op` 0xA raises `IllegalOp` (R59, R109). -/
def execReservedA (s : State) : Host.Outcome State Fault Refusal := s.acceptCommand (.error .illegalOp)

/-- `cmd_op` 0xB raises `IllegalOp` (R59, R109). -/
def execReservedB (s : State) : Host.Outcome State Fault Refusal := s.acceptCommand (.error .illegalOp)

/-- `cmd_op` 0xC raises `IllegalOp` (R59, R109). -/
def execReservedC (s : State) : Host.Outcome State Fault Refusal := s.acceptCommand (.error .illegalOp)

/-- `cmd_op` 0xD raises `IllegalOp` (R59, R109). -/
def execReservedD (s : State) : Host.Outcome State Fault Refusal := s.acceptCommand (.error .illegalOp)

/-- `cmd_op` 0xE raises `IllegalOp` (R59, R109). -/
def execReservedE (s : State) : Host.Outcome State Fault Refusal := s.acceptCommand (.error .illegalOp)

/-- `cmd_op` 0xF raises `IllegalOp` (R59, R109). -/
def execReservedF (s : State) : Host.Outcome State Fault Refusal := s.acceptCommand (.error .illegalOp)

end Sys2Proof.Machine
end

