-- ==== Sys2Proof/Machine/Dispatch.lean ====
section
/-! DEFINITION. One arm per instruction, each a direct call of its meaning. -/

namespace Sys2Proof.Machine

def exec (i : Instr) (s : State) : Host.Outcome State Fault Refusal :=
  match i with
  | .sendme => Sys2Proof.Machine.execSendme s
  | .page n => Sys2Proof.Machine.execPage n s
  | .setTxt comp text => Sys2Proof.Machine.execSetTxt comp text s
  | .vis comp visible => Sys2Proof.Machine.execVis comp visible s
  | .cir x y r col => Sys2Proof.Machine.execCir x y r col s
  | .cirs x y r col => Sys2Proof.Machine.execCirs x y r col s
  | .setBco comp col => Sys2Proof.Machine.execSetBco comp col s
  | .click comp => Sys2Proof.Machine.execClick comp s
  | .raw text => Sys2Proof.Machine.execRaw text s
  | .reserved9 => Sys2Proof.Machine.execReserved9 s
  | .reservedA => Sys2Proof.Machine.execReservedA s
  | .reservedB => Sys2Proof.Machine.execReservedB s
  | .reservedC => Sys2Proof.Machine.execReservedC s
  | .reservedD => Sys2Proof.Machine.execReservedD s
  | .reservedE => Sys2Proof.Machine.execReservedE s
  | .reservedF => Sys2Proof.Machine.execReservedF s
  | .ingest b => Sys2Proof.Machine.execIngest b s
  | .term => Sys2Proof.Machine.execTerm s
  | .touch payload => Sys2Proof.Machine.execTouch payload s
  | .pageChanged payload => Sys2Proof.Machine.execPageChanged payload s
  | .otherFrame frame => Sys2Proof.Machine.execOtherFrame frame s
  | .rgb565 r g b => Sys2Proof.Machine.execRgb565 r g b s
  | .hex565 len bytes => Sys2Proof.Machine.execHex565 len bytes s

end Sys2Proof.Machine
end

