-- ==== Sys2Proof/Machine/Fetch.lean ====
section
/-! DEFINITION. The operations that the pins present in one cycle: the NPE's fetch (10_state.md R11). -/

namespace Sys2Proof.Machine

/-- The operations on `rx_*`: the one that the bytes are, or else an INGEST for each byte (42_frame_decoder.md
R89; log 6). -/
def offeredRx (bs : List Byte) : List Instr :=
  match decodeRx bs with
  | .ok i => [i]
  | .error _ => bs.map Instr.ingest

/-- The operation on `cmd_*`, if one is offered (10_state.md R28). -/
def offeredCmd (p : Pins) : List Instr := if p.cmdValid then [decodeDescriptor p.cmd] else []

/-- CC reads its pins in every cycle (10_state.md R29; 40_color_codec.md R67). -/
def offeredCc (p : Pins) : List Instr := [.rgb565 p.ccR p.ccG p.ccB, .hex565 p.ccHexLen p.ccHex]

/-- Every operation that the pins present in this cycle. DEC, ENC and CC share no state, so their order here
shows nowhere (20_memory.md R42; log 16). -/
def State.offered (s : State) : List Instr := offeredRx s.pins.rx ++ offeredCmd s.pins ++ offeredCc s.pins

end Sys2Proof.Machine
end

