-- ==== Sys2Proof/Machine/Step.lean ====
section
/-! DEFINITION. One step: the rising edge that ends the present cycle (10_state.md R25). -/

namespace Sys2Proof.Machine

/-- Every operation of a list, in order. -/
def execAll (s : State) : List Instr → Host.Outcome State Fault Refusal
  | [] => .next s
  | i :: is =>
    match exec i s with
    | .next t => execAll t is
    | .fault f => .fault f
    | .refused r => .refused r

/-- One rising edge. In reset every register takes its reset value (70_reset_and_hazards.md R121). Otherwise the
pulses fall, the operations on the pins run, and a byte offered on `tx_*` in this cycle and taken is sent
(41_command_encoder.md R82). Then the next cycle begins. -/
def step (s : State) : Host.Outcome State Fault Refusal :=
  if s.pins.rst then .next s.resetEdge.nextCycle
  else
    match execAll s.beginEdge s.offered with
    | .next t => .next (s.endEdge t)
    | .fault f => .fault f
    | .refused r => .refused r

/-- The machine with a word of spec/opcode_table.json on the port that presents it (log 9). -/
def State.withFetchWord (s : State) (nbits w : Nat) : State :=
  match portWordOfTable nbits w with
  | none => s
  | some pw => s.present pw

end Sys2Proof.Machine
end

