-- ==== Sys2Proof/Safety.lean ====
section
/-! DEFINITION. The terms that claims use: the invariants of 10_state.md R31 and of the encoder, the run of the
machine with what it sends and emits, and an independent reading of a byte stream as frames. -/

namespace Sys2Proof.Machine

/-! ## Invariants -/

/-- How many 0xFF bytes end a list. -/
def trailingTerm (bs : List Byte) : Nat := (bs.reverse.takeWhile (· == Config.termByte)).length

/-- `ACC[0..cnt)`. -/
def accBytes (d : DecState) : List Byte := memPrefix d.acc d.cnt

/-- What holds of the frame in progress between steps: R31's four points, and that a frame is dropped only
once ACC is full (42_frame_decoder.md R93). -/
structure FrameInv (p : Config.Params) (d : DecState) : Prop where
  idle_iff : d.st = .idle ↔ d.cnt = 0
  idle_run : d.st = .idle → d.run = 0 ∧ d.drop = false
  run_le : d.run.toNat ≤ 2
  run_trailing : d.drop = false → d.run.toNat = trailingTerm (accBytes d)
  cnt_le : Config.within p.bufCap d.cnt = true
  drop_full : d.drop = true → p.bufCap = some d.cnt

/-- What holds of DEC between steps: `FrameInv`; a drop is remembered (R16); both arrays are canonical and list no
index that does not exist (20_memory.md R35); the ranges of `fob_len` (R18) and `tp_fv` (R30); a register whose
field is absent holds 0x00 (R19, R20). -/
structure DecInv (p : Config.Params) (d : DecState) : Prop extends FrameInv p d where
  drop_seen : d.drop = true → d.ovfSeen = true
  acc_wf : Memory.wf d.acc = true
  fob_wf : Memory.wf d.fob = true
  acc_below : ∀ c ∈ d.acc, Config.below p.bufCap c.1 = true
  fob_below : ∀ c ∈ d.fob, Config.below p.frameMax c.1 = true
  fobLen_le : Config.within p.frameMax d.fobLen = true
  tpFv_prefix : d.tpFv = 0b000 ∨ d.tpFv = 0b001 ∨ d.tpFv = 0b011 ∨ d.tpFv = 0b111
  tpPage_absent : d.tpFv[0] = false → d.tpPage = 0x00
  tpId_absent : d.tpFv[1] = false → d.tpId = 0x00
  tpState_absent : d.tpFv[2] = false → d.tpState = 0x00
  pgPage_absent : d.pgFv = false → d.pgPage = 0x00

/-- What holds of ENC between steps: nothing queued in E_IDLE; in E_SEND a list of at most `ENC_MAXLEN` bytes
that ends in the terminator, and an index into it (R21, R22; 41_command_encoder.md R83); `err_code` is never 3
(R23); an error pulse only in E_IDLE (60_exceptions.md R116). -/
structure EncInv (p : Config.Params) (e : EncState) : Prop where
  idle_empty : e.est = .idle → e.eq = [] ∧ e.eidx = 0
  send_index : e.est = .send → e.eidx < e.eq.length
  send_term : e.est = .send → ∃ body, e.eq = body ++ Config.ff3
  eq_le : e.eq.length ≤ p.encMaxLen
  errCode_ne : e.errCode ≠ 3
  errV_idle : e.errV = true → e.est = .idle ∧ e.errCode ≠ 0

/-- The invariant of the machine: legal parameters, and both units' invariants. -/
structure State.Inv (s : State) : Prop where
  legal : s.params.legal = true
  dec : DecInv s.params s.dec
  enc : EncInv s.params s.enc

/-! ## Runs -/

/-- A step that gives a next state: the only outcome a safe run has. -/
def Answers (o : Host.Outcome State Fault Refusal) : Prop := ∃ t, o = .next t

/-- `n` steps from `s` answer `t`; on the way ENC queues `queued`, sends `wire` on `tx_*`, and DEC emits `evs`,
each in order (20_memory.md R36, R40, R41). -/
inductive Runs : Nat → State → State → List Byte → List Byte → List DecEvent → Prop where
  | done (s : State) : Runs 0 s s [] [] []
  | step {n : Nat} {s t u : State} {queued wire : List Byte} {evs : List DecEvent} :
      step s = .next t → Runs n t u queued wire evs →
      Runs (n + 1) s u (s.queuedBytes ++ queued) (s.sentBytes ++ wire) (s.emittedEvents ++ evs)

/-- The levels on the pins in the present cycle and in the ones that follow. -/
def State.pinsAhead (s : State) : List Pins := s.pins :: s.sched

/-! ## The two results of an accepted command -/

/-- ENC right after it accepted a command whose bytes are `L` (41_command_encoder.md R81). -/
def State.sending (s : State) (L : List Byte) : State :=
  { s with enc := { est := .send, eq := L, eidx := 0, errCode := 0, errV := false } }

/-- ENC right after it accepted a command that raised the error of code `c`: nothing else changes
(41_command_encoder.md R81; 60_exceptions.md R116). -/
def State.failing (s : State) (c : BitVec 2) : State :=
  { s with enc := { s.enc with errCode := c, errV := true } }

/-- The frame of the latest received-data event. -/
def lastReceived (evs : List DecEvent) : Option (List Byte) :=
  evs.foldl (fun o e => match e with | .receivedData F => some F | _ => o) none

/-- The fields of the latest touch event. -/
def lastTouch (evs : List DecEvent) : Option (Option Byte × Option Byte × Option Byte) :=
  evs.foldl (fun o e => match e with | .touch p i s => some (p, i, s) | _ => o) none

/-- The field of the latest page-changed event. -/
def lastPage (evs : List DecEvent) : Option (Option Byte) :=
  evs.foldl (fun o e => match e with | .pageChanged p => some p | _ => o) none

/-! ## A byte stream read as frames, without a decoder's state (30_encoding.md R48; 42_frame_decoder.md R106) -/

/-- Whether the last three bytes of a list are the terminator. -/
def endsInTerm (bs : List Byte) : Bool := decide (bs.reverse.take 3 = Config.ff3)

/-- The frames of a stream, cut at each first run of three 0xFF bytes since the last cut, and the bytes left
over; `open_` are the bytes since the last cut. -/
def cutFrames (open_ : List Byte) : List Byte → List (List Byte) × List Byte
  | [] => ([], open_)
  | b :: bs =>
    if endsInTerm (open_ ++ [b]) then
      ((open_ ++ [b]).take (open_.length - 2) :: (cutFrames [] bs).1, (cutFrames [] bs).2)
    else cutFrames (open_ ++ [b]) bs

/-- The typed event of a frame: fields are consumed in order, absent ones are `none` (42_frame_decoder.md R99 to
R102). -/
def typedEvents : List Byte → List DecEvent
  | 0x65#8 :: fields => [.touch fields[0]? fields[1]? fields[2]?]
  | 0x66#8 :: fields => [.pageChanged fields[0]?]
  | _ => []

/-- The events of a frame: dropped when it is longer than `FRAME_MAX` (92 D3), else delivered and classified
(42_frame_decoder.md R95). -/
def frameEvents (p : Config.Params) (F : List Byte) : List DecEvent :=
  if Config.within p.frameMax F.length then .receivedData F :: typedEvents F else [.frameDropped]

/-- The current page and its valid bit after an event (10_state.md R17). -/
def pageAfter (page : Byte × Bool) : DecEvent → Byte × Bool
  | .pageChanged (some v) => (v, true)
  | _ => page

end Sys2Proof.Machine
end

