-- ==== Sys2Proof/Certificates/Slice0/Obligations.lean ====
section
/-! DEFINITION. The statements for the provers. OBLIGATIONS.json lists them; each docstring names its rules. -/

open Sys2Proof Sys2Proof.Machine

/-! ## Encoding -/

/-- Writing a well-formed operation onto its port and reading it back gives the operation; the empty frame, whose
wire form is the bare terminator, reads back as TERM (R48, R50, R57, R58, R60; log 8). -/
def Obligations.EncodeThenDecodeGivesOperation : Prop :=
  ∀ (p : Config.Params) (i : Instr), i.wf p = true →
    decode (encode i) = .ok (if i = .otherFrame [] then .term else i)

/-- A few words written out from the spec's encodings decode to what they stand for: descriptors (R57, R58, R60),
frames and the terminator (R47 to R50; that the bare terminator, also the empty frame's bytes, reads as TERM is
log 8), one byte (R88), and no single operation where bytes go on past a frame (R52). -/
def Obligations.WrittenOutWordsDecode : Prop :=
  decode (.descriptor { Descriptor.zero with op := 0x1, n := 3, x := 9 }) = .ok (.page 3) ∧
  decode (.descriptor { Descriptor.zero with op := 0x5, x := 5, y := 6, r := 7, ckind := 1, cpacked := 0xFFFF }) =
    .ok (.cirs 5 6 7 (.packed 0xFFFF)) ∧
  decode (.descriptor { Descriptor.zero with op := 0xB }) = .ok .reservedB ∧
  decode (.rx [0x65, 0x00, 0x05, 0x01, 0xFF, 0xFF, 0xFF]) = .ok (.touch [0x00, 0x05, 0x01]) ∧
  decode (.rx [0x66, 0x02, 0xFF, 0xFF, 0xFF]) = .ok (.pageChanged [0x02]) ∧
  decode (.rx [0x10, 0xFF, 0xFF, 0x20, 0xFF, 0xFF, 0xFF]) = .ok (.otherFrame [0x10, 0xFF, 0xFF, 0x20]) ∧
  decode (.rx [0xFF, 0xFF, 0xFF]) = .ok .term ∧
  decode (.rx [0x65]) = .ok (.ingest 0x65) ∧
  decode (.rx [0x01, 0xFF, 0xFF, 0xFF, 0xFF]) = .error .severalOperations

/-- Two descriptors that agree on `cmd_op` and on the fields its operation reads (a string only up to its
length, a colour only in the fields its kind selects) encode alike (R58, R60). -/
def Obligations.UnreadDescriptorFieldsAreIgnored : Prop :=
  ∀ (p : Config.Params) (d e : Descriptor), d.op = e.op →
    (d.op = 0x1 → d.n = e.n) →
    (d.op = 0x2 ∨ d.op = 0x3 ∨ d.op = 0x6 ∨ d.op = 0x7 →
      d.compLen = e.compLen ∧ d.comp.take d.compLen = e.comp.take e.compLen) →
    (d.op = 0x2 ∨ d.op = 0x8 → d.textLen = e.textLen ∧ d.text.take d.textLen = e.text.take e.textLen) →
    (d.op = 0x3 → d.vis = e.vis) →
    (d.op = 0x4 ∨ d.op = 0x5 → d.x = e.x ∧ d.y = e.y ∧ d.r = e.r) →
    (d.op = 0x4 ∨ d.op = 0x5 ∨ d.op = 0x6 →
      d.ckind = e.ckind ∧ (d.ckind = 0 → d.cname = e.cname) ∧ (d.ckind = 1 → d.cpacked = e.cpacked) ∧
      (d.ckind = 2 → d.cr = e.cr ∧ d.cg = e.cg ∧ d.cb = e.cb) ∧
      (d.ckind = 3 → d.chexLen = e.chexLen ∧ d.chex.take d.chexLen.toNat = e.chex.take e.chexLen.toNat)) →
    encEncode p d = encEncode p e

/-! ## The colour codec -/

/-- RGB565 packs the top 5, 6 and 5 bits (R64). -/
def Obligations.RgbPacksTopBits : Prop :=
  ∀ r g b : Byte, (ccRgb565 r g b).toNat = r.toNat / 8 * 2048 + g.toNat / 4 * 32 + b.toNat / 8

/-- `hexval` of every byte (R66). -/
def Obligations.HexDigitValues : Prop :=
  ∀ c : Byte,
    hexval c =
      if 0x30 ≤ c.toNat ∧ c.toNat ≤ 0x39 then some (BitVec.ofNat 8 (c.toNat - 0x30))
      else if 0x61 ≤ c.toNat ∧ c.toNat ≤ 0x66 then some (BitVec.ofNat 8 (c.toNat - 0x61 + 10))
      else if 0x41 ≤ c.toNat ∧ c.toNat ≤ 0x46 then some (BitVec.ofNat 8 (c.toNat - 0x41 + 10))
      else none

/-- A hex colour string succeeds exactly when it is `#` and six hex digits, with the colour of the three bytes
they spell; anything else raises `InvalidColorFormat`, as does a port length above 8; the port shows the colour, or
the error and 0x0000 (R65). -/
def Obligations.HexColourParsesExactly : Prop :=
  (∀ (s : List Byte) (v : Half), ccHex565 s = .ok v ↔
    ∃ r1 r0 g1 g0 b1 b0 x1 x0 y1 y0 z1 z0 : Byte,
      s = [0x23, r1, r0, g1, g0, b1, b0] ∧
      hexval r1 = some x1 ∧ hexval r0 = some x0 ∧ hexval g1 = some y1 ∧ hexval g0 = some y0 ∧
      hexval b1 = some z1 ∧ hexval b0 = some z0 ∧
      v = ccRgb565 (16 * x1 + x0) (16 * y1 + y0) (16 * z1 + z0)) ∧
  (∀ (s : List Byte) (e : EncError), ccHex565 s = .error e → e = .invalidColorFormat) ∧
  (∀ (len : BitVec 4) (bytes : List Byte),
    hexPort565 len bytes =
      if 8 < len.toNat then .error .invalidColorFormat else ccHex565 (bytes.take len.toNat)) ∧
  (∀ s : State,
    (∀ v, hexPort565 s.pins.ccHexLen s.pins.ccHex = .ok v → s.ccHexErr = false ∧ s.ccHex565Out = v) ∧
    (∀ e, hexPort565 s.pins.ccHexLen s.pins.ccHex = .error e → s.ccHexErr = true ∧ s.ccHex565Out = 0x0000))

/-- RGB565 answers: its output port shows the packed colour in the same cycle, and no register changes
(R64, R67, R29; that the operation drives the pins `cc_r`, `cc_g`, `cc_b` is log 10). -/
def Obligations.RgbOperationShowsColour : Prop :=
  ∀ (r g b : Byte) (s : State), ∃ t,
    exec (.rgb565 r g b) s = .next t ∧
    t.ccRgb565Out.toNat = r.toNat / 8 * 2048 + g.toNat / 4 * 32 + b.toNat / 8 ∧
    t = { s with pins := { s.pins with ccR := r, ccG := g, ccB := b } }

/-- HEX565 answers: its output ports show the colour, or the error and 0x0000, in the same cycle, and no
register changes (R65, R67, R29; that the operation drives the pins `cc_hex_len` and `cc_hex` is log 10). -/
def Obligations.HexOperationShowsColourOrError : Prop :=
  ∀ (len : BitVec 4) (bytes : List Byte) (s : State), ∃ t,
    exec (.hex565 len bytes) s = .next t ∧
    t = { s with pins := { s.pins with ccHexLen := len, ccHex := bytes } } ∧
    (8 < len.toNat → t.ccHexErr = true ∧ t.ccHex565Out = 0x0000) ∧
    (len.toNat ≤ 8 → ∀ v, ccHex565 (bytes.take len.toNat) = .ok v → t.ccHexErr = false ∧ t.ccHex565Out = v) ∧
    (len.toNat ≤ 8 → ∀ e, ccHex565 (bytes.take len.toNat) = .error e → t.ccHexErr = true ∧ t.ccHex565Out = 0x0000)

/-! ## The command encoder -/

/-- `dec(v)`: one to five ASCII digits, most significant first, without leading zeros, whose value is `v` (R70). -/
def Obligations.DecimalSpellingIsExact : Prop :=
  ∀ v : Half,
    1 ≤ (decSpelling v).length ∧ (decSpelling v).length ≤ 5 ∧
    (∀ c ∈ decSpelling v, 0x30 ≤ c.toNat ∧ c.toNat ≤ 0x39) ∧
    (decSpelling v).foldl (fun acc c => 10 * acc + (c.toNat - 0x30)) 0 = v.toNat ∧
    ((decSpelling v).head? = some 0x30 → decSpelling v = [0x30])

/-- The spelling of every kind of colour operand (R71, R60, R61). -/
def Obligations.ColourOperandSpelling : Prop :=
  (∀ d : Descriptor, (d.ckind = 0 → decodeColour d = .named d.cname) ∧
    (d.ckind = 1 → decodeColour d = .packed d.cpacked) ∧
    (d.ckind = 2 → decodeColour d = .rgb d.cr d.cg d.cb) ∧
    (d.ckind = 3 → decodeColour d = .hex d.chexLen d.chex)) ∧
  spellColour (.named 0) = .ok [0x42, 0x4C, 0x41, 0x43, 0x4B] ∧
  spellColour (.named 1) = .ok [0x42, 0x4C, 0x55, 0x45] ∧
  spellColour (.named 2) = .ok [0x42, 0x52, 0x4F, 0x57, 0x4E] ∧
  spellColour (.named 3) = .ok [0x47, 0x52, 0x45, 0x45, 0x4E] ∧
  spellColour (.named 4) = .ok [0x59, 0x45, 0x4C, 0x4C, 0x4F, 0x57] ∧
  spellColour (.named 5) = .ok [0x52, 0x45, 0x44] ∧
  spellColour (.named 6) = .ok [0x47, 0x52, 0x41, 0x59] ∧
  spellColour (.named 7) = .ok [0x57, 0x48, 0x49, 0x54, 0x45] ∧
  (∀ v, spellColour (.packed v) = .ok (decSpelling v)) ∧
  (∀ r g b, spellColour (.rgb r g b) = .ok (decSpelling (ccRgb565 r g b))) ∧
  (∀ len bytes, 8 < len.toNat → spellColour (.hex len bytes) = .error .invalidColorFormat) ∧
  (∀ len bytes, len.toNat ≤ 8 →
    (∀ v, ccHex565 (bytes.take len.toNat) = .ok v → spellColour (.hex len bytes) = .ok (decSpelling v)) ∧
    (∀ e, ccHex565 (bytes.take len.toNat) = .error e → spellColour (.hex len bytes) = .error .invalidColorFormat))

/-- SENDME and PAGE, accepted in E_IDLE, queue their command text and the terminator; nothing else changes but
ENC's registers (R72, R73, R81). -/
def Obligations.SendmeAndPageQueueTheirText : Prop :=
  (∀ d : Descriptor, (d.op = 0x0 → decodeDescriptor d = .sendme) ∧ (d.op = 0x1 → decodeDescriptor d = .page d.n)) ∧
  ∀ s : State, s.enc.est = .idle →
    exec .sendme s = .next (s.sending [0x73, 0x65, 0x6E, 0x64, 0x6D, 0x65, 0xFF, 0xFF, 0xFF]) ∧
    ∀ n : Half, exec (.page n) s =
      .next (s.sending ([0x70, 0x61, 0x67, 0x65, 0x20] ++ decSpelling n ++ [0xFF, 0xFF, 0xFF]))

/-- SETTXT, accepted in E_IDLE, queues `{comp}.txt="{text}"` and the terminator, or raises `IllegalOp` when a
length exceeds its port (R74, R81). -/
def Obligations.SetTxtQueuesQuotedText : Prop :=
  (∀ d : Descriptor, d.op = 0x2 → decodeDescriptor d = .setTxt ⟨d.compLen, d.comp⟩ ⟨d.textLen, d.text⟩) ∧
  ∀ (s : State) (c t : StrArg), s.enc.est = .idle →
    (c.len ≤ s.params.compMax → t.len ≤ s.params.textMax →
      exec (.setTxt c t) s =
        .next (s.sending (c.bytes.take c.len ++ [0x2E, 0x74, 0x78, 0x74, 0x3D, 0x22] ++ t.bytes.take t.len ++
          [0x22] ++ [0xFF, 0xFF, 0xFF]))) ∧
    (s.params.compMax < c.len ∨ s.params.textMax < t.len → exec (.setTxt c t) s = .next (s.failing 2))

/-- VIS, accepted in E_IDLE, queues `vis {comp},{1|0}` and the terminator, or raises `IllegalOp` (R75, R81). -/
def Obligations.VisQueuesVisibility : Prop :=
  (∀ d : Descriptor, d.op = 0x3 → decodeDescriptor d = .vis ⟨d.compLen, d.comp⟩ d.vis) ∧
  ∀ (s : State) (c : StrArg) (v : Bool), s.enc.est = .idle →
    (c.len ≤ s.params.compMax →
      exec (.vis c v) s =
        .next (s.sending ([0x76, 0x69, 0x73, 0x20] ++ c.bytes.take c.len ++ [0x2C] ++
          [if v then 0x31 else 0x30] ++ [0xFF, 0xFF, 0xFF]))) ∧
    (s.params.compMax < c.len → exec (.vis c v) s = .next (s.failing 2))

/-- CIR and CIRS, accepted in E_IDLE, queue their text with the three decimals and the colour's spelling, or
raise `InvalidColorFormat` and send nothing (R76, R77, R81, R108). -/
def Obligations.CirclesQueueCentreRadiusColour : Prop :=
  (∀ d : Descriptor, (d.op = 0x4 → decodeDescriptor d = .cir d.x d.y d.r (decodeColour d)) ∧
    (d.op = 0x5 → decodeDescriptor d = .cirs d.x d.y d.r (decodeColour d))) ∧
  ∀ (s : State) (x y r : Half) (col : Colour), s.enc.est = .idle →
    (∀ k, spellColour col = .ok k →
      exec (.cir x y r col) s =
        .next (s.sending ([0x63, 0x69, 0x72, 0x20] ++ decSpelling x ++ [0x2C] ++ decSpelling y ++ [0x2C] ++
          decSpelling r ++ [0x2C] ++ k ++ [0xFF, 0xFF, 0xFF])) ∧
      exec (.cirs x y r col) s =
        .next (s.sending ([0x63, 0x69, 0x72, 0x73, 0x20] ++ decSpelling x ++ [0x2C] ++ decSpelling y ++ [0x2C] ++
          decSpelling r ++ [0x2C] ++ k ++ [0xFF, 0xFF, 0xFF]))) ∧
    (∀ e, spellColour col = .error e →
      exec (.cir x y r col) s = .next (s.failing 1) ∧ exec (.cirs x y r col) s = .next (s.failing 1))

/-- SETBCO, accepted in E_IDLE, queues both its commands as one list, or raises `IllegalOp` before
`InvalidColorFormat` and queues neither (R78, R81, R115). -/
def Obligations.SetBcoQueuesBothCommands : Prop :=
  (∀ d : Descriptor, d.op = 0x6 → decodeDescriptor d = .setBco ⟨d.compLen, d.comp⟩ (decodeColour d)) ∧
  ∀ (s : State) (c : StrArg) (col : Colour), s.enc.est = .idle →
    (c.len ≤ s.params.compMax → ∀ k, spellColour col = .ok k →
      exec (.setBco c col) s =
        .next (s.sending (c.bytes.take c.len ++ [0x2E, 0x62, 0x63, 0x6F, 0x3D] ++ k ++ [0xFF, 0xFF, 0xFF] ++
          [0x72, 0x65, 0x66, 0x20] ++ c.bytes.take c.len ++ [0xFF, 0xFF, 0xFF]))) ∧
    (c.len ≤ s.params.compMax → ∀ e, spellColour col = .error e → exec (.setBco c col) s = .next (s.failing 1)) ∧
    (s.params.compMax < c.len → exec (.setBco c col) s = .next (s.failing 2))

/-- CLICK, accepted in E_IDLE, queues press then release as one list, or raises `IllegalOp` (R79, R81). -/
def Obligations.ClickQueuesPressThenRelease : Prop :=
  (∀ d : Descriptor, d.op = 0x7 → decodeDescriptor d = .click ⟨d.compLen, d.comp⟩) ∧
  ∀ (s : State) (c : StrArg), s.enc.est = .idle →
    (c.len ≤ s.params.compMax →
      exec (.click c) s =
        .next (s.sending ([0x63, 0x6C, 0x69, 0x63, 0x6B, 0x20] ++ c.bytes.take c.len ++ [0x2C, 0x31] ++
          [0xFF, 0xFF, 0xFF] ++ [0x63, 0x6C, 0x69, 0x63, 0x6B, 0x20] ++ c.bytes.take c.len ++ [0x2C, 0x30] ++
          [0xFF, 0xFF, 0xFF]))) ∧
    (s.params.compMax < c.len → exec (.click c) s = .next (s.failing 2))

/-- RAW, accepted in E_IDLE, queues its text and the terminator, or raises `IllegalOp` (R80, R81). -/
def Obligations.RawQueuesText : Prop :=
  (∀ d : Descriptor, d.op = 0x8 → decodeDescriptor d = .raw ⟨d.textLen, d.text⟩) ∧
  ∀ (s : State) (t : StrArg), s.enc.est = .idle →
    (t.len ≤ s.params.textMax →
      exec (.raw t) s = .next (s.sending (t.bytes.take t.len ++ [0xFF, 0xFF, 0xFF]))) ∧
    (s.params.textMax < t.len → exec (.raw t) s = .next (s.failing 2))

/-- The seven reserved operation codes, accepted in E_IDLE, raise `IllegalOp`: code 2, one error pulse, nothing
queued, nothing else changed (R59, R109, R116). -/
def Obligations.ReservedCodesRaiseIllegalOp : Prop :=
  (∀ d : Descriptor, 0x9 ≤ d.op.toNat → decodeDescriptor d ∈ [Instr.reserved9, .reservedA, .reservedB, .reservedC,
      .reservedD, .reservedE, .reservedF]) ∧
  ∀ s : State, s.enc.est = .idle → ∀ i ∈ [Instr.reserved9, .reservedA, .reservedB, .reservedC, .reservedD,
      .reservedE, .reservedF], exec i s = .next (s.failing 2)

/-- In E_SEND no command is accepted: each of the sixteen waits, with no effect (R28, R84). -/
def Obligations.CommandsWaitWhileSending : Prop :=
  ∀ (s : State) (d : Descriptor), s.enc.est = .send → exec (decodeDescriptor d) s = .next s

/-- A descriptor offered in E_IDLE does what `enc_encode` gives for it (R69, R81, R107). -/
def Obligations.AcceptanceFollowsEncEncode : Prop :=
  ∀ (s : State) (d : Descriptor), s.enc.est = .idle →
    exec (decodeDescriptor d) s =
      .next (match encEncode s.params d with
        | .ok L => s.sending L
        | .error .invalidColorFormat => s.failing 1
        | .error .illegalOp => s.failing 2)

/-- Every list `enc_encode` returns ends in the terminator and has at most `ENC_MAXLEN` bytes (R83, R22). -/
def Obligations.EncodedListsEndInTerminatorAndFit : Prop :=
  ∀ (p : Config.Params) (d : Descriptor) (L : List Byte), encEncode p d = .ok L →
    3 ≤ L.length ∧ (∃ body, L = body ++ [0xFF, 0xFF, 0xFF]) ∧
    L.length ≤ max 32 (max (p.compMax + p.textMax + 10) (max (2 * p.compMax + 22) (p.textMax + 3)))

/-- Outside reset: in E_SEND the byte at the index is offered, an edge sends it when the transport takes it, moves to
the next byte or after the last to E_IDLE, and otherwise changes nothing but a fallen `err_v`, whatever stands on the
command pins; in E_IDLE nothing is offered or sent (R82). -/
def Obligations.EncoderSendsOneByteAtATime : Prop :=
  ∀ s : State, s.pins.rst = false →
    (s.enc.est = .send → ∃ t, step s = .next t ∧
      s.txValid = true ∧ s.txData = s.enc.eq.getD s.enc.eidx 0 ∧
      s.sentBytes = (if s.pins.txReady then [s.txData] else []) ∧
      t.enc =
        (if s.pins.txReady = false then { s.enc with errV := false }
         else if s.enc.eidx + 1 = s.enc.eq.length then
           { est := .idle, eq := [], eidx := 0, errCode := s.enc.errCode, errV := false }
         else { s.enc with eidx := s.enc.eidx + 1, errV := false })) ∧
    (s.enc.est = .idle → s.txValid = false ∧ s.txData = 0x00 ∧ s.sentBytes = [])

/-- A queued command leaves whole, byte for byte in order, in as many steps as it has bytes when the transport
takes one in each, and ENC is then idle (R82, R84, R135). A step is one cycle where `rx` lists at most one byte; a
longer list stands for several edges of which the last sends (log 6). The schedule of pins is the model's (log 2). -/
def Obligations.QueuedCommandLeavesWhole : Prop :=
  ∀ (s : State) (L : List Byte), s.enc.est = .send → s.enc.eidx = 0 → s.enc.eq = L → L ≠ [] →
    L.length ≤ s.pinsAhead.length →
    (∀ q ∈ s.pinsAhead.take L.length, q.rst = false ∧ q.txReady = true) →
    ∃ t evs, Runs L.length s t [] L evs ∧ t.enc.est = .idle ∧ t.enc.eq = [] ∧ t.enc.eidx = 0

/-- Over any run without reset, the wire carries exactly the bytes of the accepted commands, in acceptance order,
each command's bytes together: what was pending and what was queued is what was sent and what is still pending
(R41, R84, R86). -/
def Obligations.WireCarriesAcceptedCommandsInOrder : Prop :=
  ∀ (n : Nat) (s t : State) (queued wire : List Byte) (evs : List DecEvent), s.Inv →
    (∀ q ∈ s.pinsAhead.take n, q.rst = false) → Runs n s t queued wire evs →
    s.pendingBytes ++ queued = wire ++ t.pendingBytes

/-- An edge outside reset in E_IDLE takes the command on its pins, if one is offered: its bytes are queued and
`err_code` cleared, or its error's code and pulse are written and nothing else; without an offer, and in E_SEND,
`err_v` falls and `err_code` is kept (R81). -/
def Obligations.EdgeTakesOfferedCommand : Prop :=
  ∀ s : State, s.pins.rst = false → ∃ t, step s = .next t ∧
    (s.enc.est = .idle →
      t.enc =
        (if s.pins.cmdValid = false then { s.enc with errV := false }
         else match encEncode s.params s.pins.cmd with
          | .ok L => { est := .send, eq := L, eidx := 0, errCode := 0, errV := false }
          | .error .invalidColorFormat => { s.enc with errCode := 1, errV := true }
          | .error .illegalOp => { s.enc with errCode := 2, errV := true })) ∧
    (s.enc.est = .send → t.enc.errV = false ∧ t.enc.errCode = s.enc.errCode)

/-! ## The frame decoder -/

/-- INGEST does `dec_step`, from any state: its events, every register after it, and the pulses (R88, R24, R104).
The free value's generation `fobGen` is the model's own (log 4). -/
def Obligations.IngestTakesOneByte : Prop :=
  ∀ (s : State) (b : Byte),
    let d := s.dec
    let cnt0 := if d.st = .idle then 0 else d.cnt
    let run0 := if d.st = .idle then 0 else d.run
    let drop0 := if d.st = .idle then false else d.drop
    let room := Config.below s.params.bufCap cnt0
    let acc1 := if room then memWrite d.acc cnt0 b else d.acc
    let cnt1 := if room then cnt0 + 1 else cnt0
    let drop1 := drop0 || !room
    let seen1 := d.ovfSeen || !room
    let F := memPrefix acc1 (cnt1 - 3)
    let isTouch := decide (F.head? = some 0x65)
    let isPage := decide (F.head? = some 0x66)
    let completes := decide (b = 0xFF) && decide (run0 = 2)
    let d' : DecState :=
      if completes then
        if drop1 then
          { d with st := .idle, run := 0, cnt := 0, drop := false, acc := acc1, ovfSeen := seen1 }
        else
          { d with
            st := .idle, run := 0, cnt := 0, drop := false, acc := acc1, ovfSeen := seen1
            fob := memWriteList d.fob 0 F, fobLen := cnt1 - 3, fobGen := d.fobGen + 1
            tpPage := if isTouch then F[1]?.getD 0 else d.tpPage
            tpId := if isTouch then F[2]?.getD 0 else d.tpId
            tpState := if isTouch then F[3]?.getD 0 else d.tpState
            tpFv := if isTouch then
                (if F.length ≤ 1 then 0b000 else if F.length = 2 then 0b001 else if F.length = 3 then 0b011
                  else 0b111)
              else d.tpFv
            pgPage := if isPage then F[1]?.getD 0 else d.pgPage
            pgFv := if isPage then F[1]?.isSome else d.pgFv
            curPage := if isPage then F[1]?.getD d.curPage else d.curPage
            curPageV := (isPage && F[1]?.isSome) || d.curPageV }
      else
        { d with
          st := .recv, run := if b = 0xFF then run0 + 1 else 0, cnt := cnt1, drop := drop1, acc := acc1
          ovfSeen := seen1 }
    let evs : List DecEvent :=
      if completes then
        if drop1 then [.frameDropped]
        else if isTouch then [.receivedData F, .touch F[1]? F[2]? F[3]?]
        else if isPage then [.receivedData F, .pageChanged F[1]?]
        else [.receivedData F]
      else []
    decStep s.params d b = .ok (d', evs) ∧
    exec (.ingest b) s = .next { s with
      dec := d'
      pulses :=
        { rd := completes && !drop1, touch := completes && !drop1 && isTouch, page := completes && !drop1 && isPage
          drop := completes && drop1 } }

/-- What INGEST stores: at most the byte `ACC[cnt0]`, and on a delivered completion the frame's bytes in FOB;
every other byte of both arrays reads as before (R35, R92, R95). -/
def Obligations.IngestStoresOnlyItsBytes : Prop :=
  ∀ (s t : State) (b : Byte), Memory.wf s.dec.acc = true → Memory.wf s.dec.fob = true →
    exec (.ingest b) s = .next t →
    let cnt0 := if s.dec.st = .idle then 0 else s.dec.cnt
    let room := Config.below s.params.bufCap cnt0
    (∀ a, memRead t.dec.acc a = if room = true ∧ a = cnt0 then b else memRead s.dec.acc a) ∧
    (t.pulses.rd = true →
      t.dec.fobLen = cnt0 - 2 ∧
      ∀ a, memRead t.dec.fob a = if a < cnt0 - 2 then memRead s.dec.acc a else memRead s.dec.fob a) ∧
    (t.pulses.rd = false → t.dec.fobLen = s.dec.fobLen ∧ ∀ a, memRead t.dec.fob a = memRead s.dec.fob a)

/-- TERM, TOUCH, PAGE_CHANGED and OTHER_FRAME are their wire bytes, taken one by one (R48, R89; log 1). -/
def Obligations.FrameOperationsTakeTheirWireBytes : Prop :=
  ∀ (s : State) (payload frame : List Byte),
    exec .term s = execAll s ([0xFF, 0xFF, 0xFF].map Instr.ingest) ∧
    exec (.touch payload) s = execAll s ((0x65 :: payload ++ [0xFF, 0xFF, 0xFF]).map Instr.ingest) ∧
    exec (.pageChanged payload) s = execAll s ((0x66 :: payload ++ [0xFF, 0xFF, 0xFF]).map Instr.ingest) ∧
    exec (.otherFrame frame) s = execAll s ((frame ++ [0xFF, 0xFF, 0xFF]).map Instr.ingest)

/-- The terminator ends the frame in progress less the `r` bytes 0xFF that already counted, and as many of its own
bytes then begin the next frame. A frame within `FRAME_MAX` is delivered; one that is being dropped, or is longer, is
dropped, and only `ovf_seen`, the next frame's registers and the bytes that ACC has room for change. Every register,
every byte of both arrays, and the pulses, which are those of the last of the three bytes (R47, R91 to R97; pulses of
a chunk are log 6, the free value's generation `fobGen` log 4). -/
def Obligations.TerminatorEndsTheFrame : Prop :=
  ∀ s : State, s.params.legal = true → FrameInv s.params s.dec →
    Memory.wf s.dec.acc = true → Memory.wf s.dec.fob = true →
    let r := s.dec.run.toNat
    let F := memPrefix s.dec.acc (s.dec.cnt - r)
    let isTouch := decide (F.head? = some 0x65)
    let isPage := decide (F.head? = some 0x66)
    (s.dec.drop = false → Config.within s.params.frameMax (s.dec.cnt - r) = true → ∃ t, exec .term s = .next t ∧
      t.dec = { s.dec with
        st := if r = 0 then .idle else .recv
        run := s.dec.run, cnt := r, drop := false, acc := t.dec.acc, fob := t.dec.fob
        fobLen := s.dec.cnt - r, fobGen := s.dec.fobGen + 1
        tpPage := if isTouch then F[1]?.getD 0 else s.dec.tpPage
        tpId := if isTouch then F[2]?.getD 0 else s.dec.tpId
        tpState := if isTouch then F[3]?.getD 0 else s.dec.tpState
        tpFv := if isTouch then touchPresent F[1]? F[2]? F[3]? else s.dec.tpFv
        pgPage := if isPage then F[1]?.getD 0 else s.dec.pgPage
        pgFv := if isPage then F[1]?.isSome else s.dec.pgFv
        curPage := if isPage then F[1]?.getD s.dec.curPage else s.dec.curPage
        curPageV := (isPage && F[1]?.isSome) || s.dec.curPageV } ∧
      (∀ a, memRead t.dec.fob a = if h : a < F.length then F[a] else memRead s.dec.fob a) ∧
      (∀ a, memRead t.dec.acc a =
        if a < r ∨ (s.dec.cnt ≤ a ∧ a < s.dec.cnt - r + 3) then 0xFF else memRead s.dec.acc a) ∧
      t.pulses = (if r = 0 then { rd := true, touch := isTouch, page := isPage, drop := false } else EvPulses.none) ∧
      t.enc = s.enc ∧ t.params = s.params ∧ t.pins = s.pins ∧ t.sched = s.sched) ∧
    (s.dec.drop = true ∨ Config.within s.params.frameMax (s.dec.cnt - r) = false → ∃ t, exec .term s = .next t ∧
      t.dec = { s.dec with
        st := if r = 0 then .idle else .recv
        run := s.dec.run, cnt := r, drop := false, ovfSeen := true, acc := t.dec.acc } ∧
      (∀ a, memRead t.dec.acc a =
        if a < r ∨ (s.dec.cnt ≤ a ∧ a < s.dec.cnt - r + 3 ∧ Config.below s.params.bufCap a = true) then 0xFF
        else memRead s.dec.acc a) ∧
      t.pulses = (if r = 0 then { rd := false, touch := false, page := false, drop := true } else EvPulses.none) ∧
      t.enc = s.enc ∧ t.params = s.params ∧ t.pins = s.pins ∧ t.sched = s.sched)

/-- A touch frame that arrives whole from IDLE: received-data and touch pulses together, its fields or 0x00 with
their present bits, its bytes in FOB; `cur_page`, the page event and the encoder untouched; only the bytes stored
change in the arrays (R49, R95, R99, R102; the free value's generation `fobGen` is log 4). -/
def Obligations.TouchFrameArrives : Prop :=
  ∀ (s : State) (payload : List Byte), s.params.legal = true →
    Memory.wf s.dec.acc = true → Memory.wf s.dec.fob = true →
    s.dec.st = .idle → framable (0x65 :: payload) = true →
    Config.within s.params.frameMax (payload.length + 1) = true →
    ∃ t, exec (.touch payload) s = .next t ∧
      t.dec = { s.dec with
        st := .idle, run := 0, cnt := 0, drop := false, acc := t.dec.acc, fob := t.dec.fob
        fobLen := payload.length + 1, fobGen := s.dec.fobGen + 1
        tpPage := payload[0]?.getD 0, tpId := payload[1]?.getD 0, tpState := payload[2]?.getD 0
        tpFv := if payload.length = 0 then 0b000 else if payload.length = 1 then 0b001
          else if payload.length = 2 then 0b011 else 0b111 } ∧
      (∀ a, memRead t.dec.fob a =
        if h : a < payload.length + 1 then (0x65 :: payload)[a] else memRead s.dec.fob a) ∧
      (∀ a, memRead t.dec.acc a =
        ((0x65 :: payload ++ [0xFF, 0xFF, 0xFF])[a]?).getD (memRead s.dec.acc a)) ∧
      t.pulses = { rd := true, touch := true, page := false, drop := false } ∧
      t.enc = s.enc ∧ t.params = s.params ∧ t.pins = s.pins ∧ t.sched = s.sched

/-- A page-changed frame that arrives whole from IDLE: received-data and page pulses together, its page or 0x00
with its present bit; a present page becomes the current page, an absent one leaves it; touch registers and the
encoder untouched; only the bytes stored change in the arrays (R49, R95, R100, R102; the free value's generation
`fobGen` is log 4). -/
def Obligations.PageFrameArrives : Prop :=
  ∀ (s : State) (payload : List Byte), s.params.legal = true →
    Memory.wf s.dec.acc = true → Memory.wf s.dec.fob = true →
    s.dec.st = .idle → framable (0x66 :: payload) = true →
    Config.within s.params.frameMax (payload.length + 1) = true →
    ∃ t, exec (.pageChanged payload) s = .next t ∧
      t.dec = { s.dec with
        st := .idle, run := 0, cnt := 0, drop := false, acc := t.dec.acc, fob := t.dec.fob
        fobLen := payload.length + 1, fobGen := s.dec.fobGen + 1
        pgPage := payload.headD 0, pgFv := !payload.isEmpty
        curPage := payload.headD s.dec.curPage, curPageV := !payload.isEmpty || s.dec.curPageV } ∧
      (∀ a, memRead t.dec.fob a =
        if h : a < payload.length + 1 then (0x66 :: payload)[a] else memRead s.dec.fob a) ∧
      (∀ a, memRead t.dec.acc a =
        ((0x66 :: payload ++ [0xFF, 0xFF, 0xFF])[a]?).getD (memRead s.dec.acc a)) ∧
      t.pulses = { rd := true, touch := false, page := true, drop := false } ∧
      t.enc = s.enc ∧ t.params = s.params ∧ t.pins = s.pins ∧ t.sched = s.sched

/-- Any other frame that arrives whole from IDLE, the empty one among them: the received-data pulse alone, its
bytes in FOB, no typed register touched (R50, R51, R95, R101; the free value's generation `fobGen` is log 4). -/
def Obligations.OtherFrameArrives : Prop :=
  ∀ (s : State) (F : List Byte), s.params.legal = true →
    Memory.wf s.dec.acc = true → Memory.wf s.dec.fob = true →
    s.dec.st = .idle → framable F = true → F.head? ≠ some 0x65 → F.head? ≠ some 0x66 →
    Config.within s.params.frameMax F.length = true →
    ∃ t, exec (.otherFrame F) s = .next t ∧
      t.dec = { s.dec with
        st := .idle, run := 0, cnt := 0, drop := false, acc := t.dec.acc, fob := t.dec.fob
        fobLen := F.length, fobGen := s.dec.fobGen + 1 } ∧
      (∀ a, memRead t.dec.fob a = if h : a < F.length then F[a] else memRead s.dec.fob a) ∧
      (∀ a, memRead t.dec.acc a = ((F ++ [0xFF, 0xFF, 0xFF])[a]?).getD (memRead s.dec.acc a)) ∧
      t.pulses = { rd := true, touch := false, page := false, drop := false } ∧
      t.enc = s.enc ∧ t.params = s.params ∧ t.pins = s.pins ∧ t.sched = s.sched

/-- A frame longer than `FRAME_MAX` that arrives from IDLE is dropped: FrameDropped alone, `ovf_seen` set, FOB
and every event register kept, and only bytes of ACC within its capacity stored (R93, R97, R111). -/
def Obligations.OverlongFrameIsDropped : Prop :=
  ∀ (s : State) (F : List Byte), s.params.legal = true → Memory.wf s.dec.acc = true →
    s.dec.st = .idle → framable F = true → Config.within s.params.frameMax F.length = false →
    ∃ t, exec (decodeFrame F) s = .next t ∧
      t.dec = { s.dec with
        st := .idle, run := 0, cnt := 0, drop := false, ovfSeen := true, acc := t.dec.acc } ∧
      (∀ a, memRead t.dec.acc a =
        if Config.below s.params.bufCap a then ((F ++ [0xFF, 0xFF, 0xFF])[a]?).getD (memRead s.dec.acc a)
        else memRead s.dec.acc a) ∧
      t.pulses = { rd := false, touch := false, page := false, drop := true } ∧
      t.enc = s.enc ∧ t.params = s.params ∧ t.pins = s.pins ∧ t.sched = s.sched

/-- DEC from reset, over any byte stream, is the reading of that stream as frames: it emits each frame's events in
order, drops exactly the frames longer than `FRAME_MAX`, and holds the bytes left over (R48, R88, R93, R94, R106). -/
def Obligations.DecoderRefinesFrameReading : Prop :=
  ∀ (p : Config.Params) (bs : List Byte), p.legal = true →
    let frames := (cutFrames [] bs).1
    let rest := (cutFrames [] bs).2
    ∃ d, decIngest p DecState.reset bs = .ok (d, frames.flatMap (frameEvents p)) ∧
      (d.st = .idle ↔ rest = []) ∧
      d.run.toNat = trailingTerm rest ∧
      d.drop = !(Config.within p.bufCap rest.length) ∧
      accBytes d = rest.take d.cnt ∧
      (d.cnt = rest.length ∨ p.bufCap = some d.cnt ∧ d.cnt ≤ rest.length)

/-- A stream of frames, each one that can arrive whole, gives each frame's events, and DEC is idle again
(R48, R96). -/
def Obligations.StreamOfFramesGivesTheirEvents : Prop :=
  ∀ (p : Config.Params) (d : DecState) (frames : List (List Byte)), p.legal = true → Memory.wf d.acc = true →
    d.st = .idle →
    (∀ F ∈ frames, framable F = true) →
    ∃ e, decIngest p d (frames.flatMap (· ++ [0xFF, 0xFF, 0xFF])) = .ok (e, frames.flatMap (frameEvents p)) ∧
      e.st = .idle ∧ (frames ≠ [] → e.cnt = 0 ∧ e.run = 0 ∧ e.drop = false)

/-- Chunk boundaries leave no trace, and an empty chunk does nothing (R89, R106 laws 1 and 2). -/
def Obligations.ChunkBoundariesLeaveNoTrace : Prop :=
  (∀ (p : Config.Params) (d : DecState), decIngest p d [] = .ok (d, [])) ∧
  ∀ (p : Config.Params) (d : DecState) (A B : List Byte), ∃ d1 d2 e1 e2,
    decIngest p d A = .ok (d1, e1) ∧ decIngest p d1 B = .ok (d2, e2) ∧
    decIngest p d (A ++ B) = .ok (d2, e1 ++ e2)

/-- A byte completes a frame exactly when it is 0xFF and two counted 0xFF bytes precede it in the frame; then
DEC is idle and empty, and otherwise it is receiving (R13, R94, R96, R106 laws 3 and 4). -/
def Obligations.CompletionExactlyAtThirdTerminatorByte : Prop :=
  ∀ (p : Config.Params) (d : DecState) (b : Byte), ∃ e evs, decStep p d b = .ok (e, evs) ∧
    (evs ≠ [] ↔ d.st = .recv ∧ d.run = 2 ∧ b = 0xFF) ∧
    (evs ≠ [] → e.st = .idle ∧ e.cnt = 0 ∧ e.run = 0 ∧ e.drop = false) ∧
    (evs = [] → e.st = .recv)

/-- One step emits nothing, one received-data event followed by at most one typed event of the same frame, or one
frame-dropped event (R106 law 5, R114). -/
def Obligations.AtMostOneTypedEventPerByte : Prop :=
  ∀ (p : Config.Params) (d e : DecState) (b : Byte) (evs : List DecEvent), decStep p d b = .ok (e, evs) →
    evs = [] ∨ evs = [.frameDropped] ∨
    ∃ F : List Byte, evs = [.receivedData F] ∨
      (F.head? = some 0x65 ∧ evs = [.receivedData F, .touch F[1]? F[2]? F[3]?]) ∨
      (F.head? = some 0x66 ∧ evs = [.receivedData F, .pageChanged F[1]?])

/-- After a byte that emits an event, the next two bytes emit none: completions are at least three bytes apart
(R104). -/
def Obligations.CompletionsAreThreeBytesApart : Prop :=
  ∀ (p : Config.Params) (d e : DecState) (b b1 b2 : Byte) (evs : List DecEvent),
    decStep p d b = .ok (e, evs) → evs ≠ [] → ∃ f, decIngest p e [b1, b2] = .ok (f, [])

/-- FOB, the touch registers and the page registers hold the latest event of their kind, and change with no other
(R18, R19, R20, R24). -/
def Obligations.EventRegistersHoldLatestEvent : Prop :=
  ∀ (p : Config.Params) (d e : DecState) (bs : List Byte) (evs : List DecEvent), Memory.wf d.fob = true →
    decIngest p d bs = .ok (e, evs) →
    (match lastReceived evs with
      | some F => e.fobLen = F.length ∧ ∀ (i : Nat) (h : i < F.length), fobAt e i = F[i]
      | none => e.fob = d.fob ∧ e.fobLen = d.fobLen) ∧
    (match lastTouch evs with
      | some (pg, id, st) =>
        e.tpPage = pg.getD 0 ∧ e.tpId = id.getD 0 ∧ e.tpState = st.getD 0 ∧
        e.tpFv[0] = pg.isSome ∧ e.tpFv[1] = id.isSome ∧ e.tpFv[2] = st.isSome
      | none => e.tpPage = d.tpPage ∧ e.tpId = d.tpId ∧ e.tpState = d.tpState ∧ e.tpFv = d.tpFv) ∧
    (match lastPage evs with
      | some pg => e.pgPage = pg.getD 0 ∧ e.pgFv = pg.isSome
      | none => e.pgPage = d.pgPage ∧ e.pgFv = d.pgFv)

/-- The current page is that of the latest page-changed event with a present page, and is valid once there was
one (R17, R100). -/
def Obligations.CurrentPageFollowsPageEvents : Prop :=
  ∀ (p : Config.Params) (d e : DecState) (bs : List Byte) (evs : List DecEvent),
    decIngest p d bs = .ok (e, evs) →
    (e.curPage, e.curPageV) = evs.foldl pageAfter (d.curPage, d.curPageV)

/-- A dropped frame keeps FOB, `fob_len`, `tp_*`, `pg_*` and `cur_page*`; DEC returns to IDLE with an empty buffer,
and besides that only ACC and `ovf_seen` may change (R96, R97). -/
def Obligations.DroppedFrameKeepsEventRegisters : Prop :=
  ∀ (p : Config.Params) (d e : DecState) (b : Byte), decStep p d b = .ok (e, [.frameDropped]) →
    e = { d with st := .idle, cnt := 0, run := 0, drop := false, acc := e.acc, ovfSeen := e.ovfSeen }

/-! ## The machine -/

/-- No instruction faults or is refused, in any state: no access leaves its array, and DEC raises nothing for any
byte (R8, R35, R105). -/
def Obligations.EveryInstructionAnswersNext : Prop :=
  (∀ (i : Instr) (s : State), ∃ t, exec i s = .next t) ∧ ∀ s : State, ∃ t, step s = .next t

/-- An edge in reset gives every register its reset value, takes no byte and no command and sends no byte, and the
handshake outputs are 0; the next cycle's pins come from the schedule (log 2). The contents of ACC and FOB, and the
model's `fobGen`, are left unsaid: no value of theirs at reset is the spec's (R121; log 4, 5). -/
def Obligations.ResetEdgeLoadsResetValues : Prop :=
  ∀ s : State, s.pins.rst = true → ∃ t, step s = .next t ∧
    t.dec = { DecState.reset with acc := t.dec.acc, fob := t.dec.fob, fobGen := t.dec.fobGen } ∧
    t.enc = EncState.reset ∧
    t.pulses = EvPulses.none ∧ t.params = s.params ∧ t.pins = s.sched.headD Pins.idle ∧ t.sched = s.sched.tail ∧
    s.sentBytes = [] ∧ s.queuedBytes = [] ∧ s.emittedEvents = [] ∧
    s.rxReady = false ∧ s.cmdReady = false ∧ s.txValid = false

/-- The reset values that the spec gives (R30; R12 to R24), whatever the parameters. -/
def Obligations.ResetRegisterValues : Prop :=
  ∀ p : Config.Params,
    let s := State.resetOf p
    s.dec.st = .idle ∧ s.dec.run = 0 ∧ s.dec.cnt = 0 ∧ s.dec.drop = false ∧ s.dec.ovfSeen = false ∧
    s.dec.curPage = 0x00 ∧ s.dec.curPageV = false ∧ s.dec.fobLen = 0 ∧
    s.dec.tpPage = 0x00 ∧ s.dec.tpId = 0x00 ∧ s.dec.tpState = 0x00 ∧ s.dec.tpFv = 0 ∧
    s.dec.pgPage = 0x00 ∧ s.dec.pgFv = false ∧
    s.pulses.rd = false ∧ s.pulses.touch = false ∧ s.pulses.page = false ∧ s.pulses.drop = false ∧
    s.enc.est = .idle ∧ s.enc.eq = [] ∧ s.enc.eidx = 0 ∧ s.enc.errCode = 0 ∧ s.enc.errV = false

/-- The machine after reset meets the invariant, for all legal parameters (R31, R122; that the arrays are listed
canonically is the model's form: log 5). -/
def Obligations.ResetMeetsInvariant : Prop :=
  ∀ p : Config.Params, p.legal = true → (State.resetOf p).Inv

/-- Every step keeps the invariant: R31's, that a dropped frame is remembered (R16), that the arrays list existing
indices only (R35) in canonical form (log 5), the ranges of `fob_len` and `tp_fv` (R18, R30), 0x00 in the register of
an absent field (R19, R20), and the encoder's (R21 to R23). -/
def Obligations.StepKeepsInvariant : Prop :=
  ∀ s t : State, s.Inv → step s = .next t → t.Inv

/-- With one operation on its port and no other input, a step runs that operation and begins the next cycle
(how an operation is presented is the model's: log 9). -/
def Obligations.StepRunsPresentedOperation : Prop :=
  ∀ (s : State) (w : PortWord) (i : Instr), decode w = .ok i →
    step (s.present w) =
      match exec i (s.present w).beginEdge with
      | .next t => .next t.nextCycle
      | .fault f => .fault f
      | .refused r => .refused r

/-- Outside reset, with any levels on the other pins, an edge does to DEC exactly `dec_ingest` of the bytes on
`rx_*` and emits its events; an edge that accepts no byte leaves DEC as it was and clears the pulses; otherwise each
pulse tells whether the last byte's step emitted its event. The parameters stay, and the next cycle's pins come from
the schedule (R26, R104; several bytes in one step are log 6, the schedule is log 2). -/
def Obligations.EdgeTakesOfferedBytes : Prop :=
  ∀ s : State, s.pins.rst = false → ∃ t evs, step s = .next t ∧
    decIngest s.params s.dec s.pins.rx = .ok (t.dec, evs) ∧ s.emittedEvents = evs ∧
    (s.pins.rx = [] → t.dec = s.dec ∧ t.pulses = EvPulses.none) ∧
    (∀ (bs : List Byte) (b : Byte), s.pins.rx = bs ++ [b] → ∃ d first last,
      decIngest s.params s.dec bs = .ok (d, first) ∧ decStep s.params d b = .ok (t.dec, last) ∧
      evs = first ++ last ∧
      (t.pulses.rd = true ↔ ∃ F, .receivedData F ∈ last) ∧
      (t.pulses.touch = true ↔ ∃ p i f, .touch p i f ∈ last) ∧
      (t.pulses.page = true ↔ ∃ p, .pageChanged p ∈ last) ∧
      (t.pulses.drop = true ↔ .frameDropped ∈ last)) ∧
    t.params = s.params ∧ t.pins = s.sched.headD Pins.idle ∧ t.sched = s.sched.tail

/-- With at most one byte in a cycle (what the port carries; log 6), each pulse is 1 in the next cycle exactly
when the edge emitted its event (R24, R104). -/
def Obligations.PulsesShowTheEdgesEvents : Prop :=
  ∀ s t : State, s.pins.rx.length ≤ 1 → step s = .next t →
    (t.pulses.rd = true ↔ ∃ F, .receivedData F ∈ s.emittedEvents) ∧
    (t.pulses.touch = true ↔ ∃ p i f, .touch p i f ∈ s.emittedEvents) ∧
    (t.pulses.page = true ↔ ∃ p, .pageChanged p ∈ s.emittedEvents) ∧
    (t.pulses.drop = true ↔ .frameDropped ∈ s.emittedEvents)

/-- `ovf_seen` is sticky: only reset clears it (R16). -/
def Obligations.OverflowSeenIsSticky : Prop :=
  ∀ s t : State, step s = .next t → s.pins.rst = false → s.dec.ovfSeen = true → t.dec.ovfSeen = true

/-- DEC and ENC share nothing: what a step does to one is a function of that unit's own registers and pins
(R42, R119). -/
def Obligations.DecoderAndEncoderAreIndependent : Prop :=
  ∀ s s' t t' : State, step s = .next t → step s' = .next t' → s.params = s'.params → s.pins.rst = s'.pins.rst →
    (s.dec = s'.dec → s.pins.rx = s'.pins.rx → t.dec = t'.dec ∧ t.pulses = t'.pulses) ∧
    (s.enc = s'.enc → s.pins.cmdValid = s'.pins.cmdValid → s.pins.cmd = s'.pins.cmd →
      s.pins.txReady = s'.pins.txReady → t.enc = t'.enc)

/-- The handshake outputs in every state, in and out of reset (R26, R28), `dec_busy` and `enc_busy`, and the read
port of FOB, which shows the byte of FOB at `fob_raddr` when that is below `fob_len` (R27, R28). That `dec_busy`,
`enc_busy` and `fob_rdata` show the held registers in a cycle with `rst` = 1, before its edge, is the model's choice
(log 20). -/
def Obligations.HandshakeOutputs : Prop :=
  ∀ s : State,
    s.rxReady = !s.pins.rst ∧
    (s.cmdReady = true ↔ s.enc.est = .idle ∧ s.pins.rst = false) ∧
    (s.txValid = true ↔ s.enc.est = .send ∧ s.pins.rst = false) ∧
    (s.txValid = true → s.txData = s.enc.eq.getD s.enc.eidx 0) ∧
    (s.txValid = false → s.txData = 0x00) ∧
    (s.encBusy = true ↔ s.enc.est = .send) ∧ (s.decBusy = true ↔ s.dec.st = .recv) ∧
    (s.pins.fobRaddr < s.dec.fobLen → s.fobRdata = memRead s.dec.fob s.pins.fobRaddr)
end

