-- ==== Sys2Proof/Laws/Memory.lean ====
section
/-! SUPPORT. The storage laws: reading after writing, and the canonical form is kept. -/

namespace Sys2Proof.Machine

theorem memRead_cons_eq (k : Nat) (v : Byte) (rest : Memory) : memRead ((k, v) :: rest) k = v := by
  simp [memRead]

theorem memRead_cons_ne {k a : Nat} (v : Byte) (rest : Memory) (h : k ≠ a) :
    memRead ((k, v) :: rest) a = memRead rest a := by
  simp [memRead, h]

/-- Every address listed in a canonical array is above a bound that its first address is above. -/
theorem memRead_below {k : Nat} {v : Byte} {rest : Memory} (h : Memory.wf ((k, v) :: rest) = true) {a : Nat}
    (ha : a ≤ k) : memRead rest a = Memory.unlisted := by
  induction rest generalizing k v with
  | nil => rfl
  | cons c rest ih =>
    obtain ⟨k', v'⟩ := c
    simp only [Memory.wf, Bool.and_eq_true, decide_eq_true_eq] at h
    obtain ⟨⟨_, hk⟩, hrest⟩ := h
    rw [memRead_cons_ne _ _ (by omega)]
    exact ih hrest (by omega)

theorem Memory.wf_tail {c : Host.Cell} {rest : Memory} (h : Memory.wf (c :: rest) = true) :
    Memory.wf rest = true := by
  cases rest with
  | nil => rfl
  | cons c' rest =>
    simp only [Memory.wf, Bool.and_eq_true] at h
    exact h.2

/-- Reading after writing, in a canonical array: the byte written, and every other byte as before. -/
theorem memRead_memWrite {m : Memory} (h : Memory.wf m = true) (a i : Nat) (b : Byte) :
    memRead (memWrite m a b) i = if i = a then b else memRead m i := by
  induction m with
  | nil =>
    simp only [memWrite]
    by_cases hi : i = a
    · subst hi
      split
      next hb => simp [memRead, hb]
      next => simp [memRead]
    · rw [if_neg hi]
      split
      · rfl
      · rw [memRead_cons_ne _ _ (by omega)]
  | cons c rest ih =>
    obtain ⟨k, v⟩ := c
    have ih := ih (Memory.wf_tail h)
    simp only [memWrite]
    split
    next hlt =>
      split
      next hb =>
        split
        next hi =>
          subst hi
          rw [memRead_cons_ne _ _ (by omega), memRead_below h (by omega), hb]
        next => rfl
      next =>
        by_cases hi : i = a
        · subst hi; simp [memRead]
        · rw [if_neg hi, memRead_cons_ne _ _ (by omega)]
    next hlt =>
      split
      next hk =>
        subst hk
        split
        next hb =>
          by_cases hi : i = a
          · subst hi; rw [if_pos rfl, memRead_below h (by omega), hb]
          · rw [if_neg hi, memRead_cons_ne _ _ (by omega)]
        next =>
          by_cases hi : i = a
          · subst hi; simp [memRead]
          · rw [if_neg hi, memRead_cons_ne _ _ (by omega), memRead_cons_ne _ _ (by omega)]
      next hk =>
        by_cases hik : k = i
        · subst hik
          rw [memRead_cons_eq, if_neg (by omega), memRead_cons_eq]
        · rw [memRead_cons_ne _ _ hik, memRead_cons_ne _ _ hik, ih]

/-- A canonical array stays canonical with a smaller listed byte in front. -/
theorem Memory.wf_cons {k : Nat} {v : Byte} {m : Memory} (hv : v ≠ Memory.unlisted) (hm : Memory.wf m = true)
    (hk : ∀ c ∈ m.head?, k < c.1) : Memory.wf ((k, v) :: m) = true := by
  cases m with
  | nil => simp [Memory.wf, hv]
  | cons c rest =>
    obtain ⟨k', v'⟩ := c
    simp only [Memory.wf, Bool.and_eq_true, decide_eq_true_eq]
    exact ⟨⟨hv, hk _ rfl⟩, hm⟩

theorem Memory.wf_head {k : Nat} {v : Byte} {rest : Memory} (h : Memory.wf ((k, v) :: rest) = true) :
    v ≠ Memory.unlisted ∧ ∀ c ∈ rest.head?, k < c.1 := by
  cases rest with
  | nil => simp_all [Memory.wf]
  | cons c rest =>
    obtain ⟨k', v'⟩ := c
    simp only [Memory.wf, Bool.and_eq_true, decide_eq_true_eq] at h
    refine ⟨h.1.1, ?_⟩
    rintro c hc
    simp only [List.head?_cons, Option.mem_def, Option.some.injEq] at hc
    subst hc
    exact h.1.2

/-- The first address after a write is the address written or the first address before. -/
theorem memWrite_head {m : Memory} {a : Nat} {b : Byte} {k : Nat} (ha : k < a) (hm : Memory.wf m = true)
    (hk : ∀ c ∈ m.head?, k < c.1) : ∀ c ∈ (memWrite m a b).head?, k < c.1 := by
  cases m with
  | nil =>
    intro c hc
    simp only [memWrite] at hc
    split at hc
    · simp at hc
    · simp only [List.head?_cons, Option.mem_def, Option.some.injEq] at hc
      subst hc; exact ha
  | cons c0 rest =>
    obtain ⟨k0, v0⟩ := c0
    have hk0 : k < k0 := hk _ rfl
    intro c hc
    simp only [memWrite] at hc
    split at hc
    · split at hc <;>
        (simp only [List.head?_cons, Option.mem_def, Option.some.injEq] at hc; subst hc; assumption)
    · split at hc
      · split at hc
        · have := (Memory.wf_head hm).2 c hc
          omega
        · simp only [List.head?_cons, Option.mem_def, Option.some.injEq] at hc
          subst hc; exact ha
      · simp only [List.head?_cons, Option.mem_def, Option.some.injEq] at hc
        subst hc; exact hk0

/-- A write keeps the canonical form. -/
theorem memWrite_wf {m : Memory} (h : Memory.wf m = true) (a : Nat) (b : Byte) :
    Memory.wf (memWrite m a b) = true := by
  induction m with
  | nil =>
    simp only [memWrite]
    split
    · rfl
    · simp_all [Memory.wf]
  | cons c rest ih =>
    obtain ⟨k, v⟩ := c
    have hrest := Memory.wf_tail h
    obtain ⟨hv, hk⟩ := Memory.wf_head h
    simp only [memWrite]
    split
    next hlt =>
      split
      · exact h
      next hb =>
        exact Memory.wf_cons hb h (by simpa using hlt)
    next =>
      split
      next hak =>
        subst hak
        split
        · exact hrest
        next hb => exact Memory.wf_cons hb hrest hk
      next => exact Memory.wf_cons hv (ih hrest) (memWrite_head (by omega) hrest hk)

/-- A list of writes keeps the canonical form. -/
theorem memWriteList_wf {m : Memory} (h : Memory.wf m = true) (a : Nat) (bs : List Byte) :
    Memory.wf (memWriteList m a bs) = true := by
  induction bs generalizing m a with
  | nil => exact h
  | cons b bs ih => exact ih (memWrite_wf h a b) (a + 1)

/-- Reading after a list of writes, in a canonical array: the bytes written, and every other byte as before. -/
theorem memRead_memWriteList {m : Memory} (h : Memory.wf m = true) (a i : Nat) (bs : List Byte) :
    memRead (memWriteList m a bs) i = if a ≤ i then (bs[i - a]?).getD (memRead m i) else memRead m i := by
  induction bs generalizing m a with
  | nil => simp [memWriteList]
  | cons b bs ih =>
    rw [memWriteList, ih (memWrite_wf h a b), memRead_memWrite h]
    by_cases hi : i = a
    · subst hi; simp
    · by_cases hle : a ≤ i
      · obtain ⟨n, rfl⟩ : ∃ n, i = a + 1 + n := ⟨i - (a + 1), by omega⟩
        have h1 : a + 1 + n - a = n + 1 := by omega
        rw [if_pos (by omega), if_pos hle, if_neg hi, h1, Nat.add_sub_cancel_left, List.getElem?_cons_succ]
      · rw [if_neg (by omega), if_neg hle, if_neg hi]

/-- A write lists no address but the one written. -/
theorem memWrite_mem {m : Memory} {a : Nat} {b : Byte} {c : Host.Cell} (h : c ∈ memWrite m a b) :
    c.1 = a ∨ c ∈ m := by
  induction m with
  | nil =>
    simp only [memWrite] at h
    split at h <;> simp_all
  | cons c0 rest ih =>
    obtain ⟨k, v⟩ := c0
    simp only [memWrite] at h
    split_ifs at h <;> simp only [List.mem_cons] at h ⊢ <;> grind

/-- A list of writes lists no address but those written. -/
theorem memWriteList_mem {m : Memory} {a : Nat} {bs : List Byte} {c : Host.Cell} (h : c ∈ memWriteList m a bs) :
    (a ≤ c.1 ∧ c.1 < a + bs.length) ∨ c ∈ m := by
  induction bs generalizing m a with
  | nil => exact .inr h
  | cons b bs ih =>
    rcases ih h with ⟨h1, h2⟩ | h1
    · left; simp only [List.length_cons]; omega
    · rcases memWrite_mem h1 with h2 | h2
      · left; simp only [List.length_cons]; omega
      · exact .inr h2

@[simp] theorem memPrefix_length (m : Memory) (n : Nat) : (memPrefix m n).length = n := by simp [memPrefix]

@[simp] theorem memPrefix_zero (m : Memory) : memPrefix m 0 = [] := rfl

theorem memPrefix_succ (m : Memory) (n : Nat) : memPrefix m (n + 1) = memPrefix m n ++ [memRead m n] := by
  simp [memPrefix, List.range_succ]

theorem memPrefix_getElem? (m : Memory) (n i : Nat) :
    (memPrefix m n)[i]? = if i < n then some (memRead m i) else none := by
  simp only [memPrefix, List.getElem?_map]
  by_cases h : i < n
  · simp [h]
  · simp [h]

/-- A prefix depends on the bytes below its length alone. -/
theorem memPrefix_congr {m m' : Memory} {n : Nat} (h : ∀ i < n, memRead m i = memRead m' i) :
    memPrefix m n = memPrefix m' n := by
  apply List.map_congr_left
  intro i hi
  exact h i (by simpa using hi)

/-- Storing at the end of a prefix appends to it. -/
theorem memPrefix_memWrite {m : Memory} (h : Memory.wf m = true) (n : Nat) (b : Byte) :
    memPrefix (memWrite m n b) (n + 1) = memPrefix m n ++ [b] := by
  rw [memPrefix_succ, memRead_memWrite h, if_pos rfl]
  congr 1
  apply memPrefix_congr
  intro i hi
  rw [memRead_memWrite h, if_neg (by omega)]

/-- A shorter prefix is a prefix of a longer one. -/
theorem memPrefix_take (m : Memory) (n k : Nat) : (memPrefix m n).take k = memPrefix m (min k n) := by
  apply List.ext_getElem?
  intro i
  rw [List.getElem?_take, memPrefix_getElem?, memPrefix_getElem?]
  split_ifs <;> first | rfl | omega

/-- The array of the reset state is canonical. -/
theorem reset_memory_wf (p : Config.Params) :
    Memory.wf (State.resetOf p).dec.acc = true ∧ Memory.wf (State.resetOf p).dec.fob = true := ⟨rfl, rfl⟩

end Sys2Proof.Machine
end

