-- ==== Sys2Proof/Laws/State.lean ====
section
/-! SUPPORT. One lemma per field per update of the state, so that no proof unfolds a record update. -/

namespace Sys2Proof.Machine

/-! ### State.raiseError -/
@[simp] theorem State.raiseError_params (s : State) (e : EncError) : (s.raiseError e).params = s.params := rfl
@[simp] theorem State.raiseError_dec (s : State) (e : EncError) : (s.raiseError e).dec = s.dec := rfl
@[simp] theorem State.raiseError_pulses (s : State) (e : EncError) : (s.raiseError e).pulses = s.pulses := rfl
@[simp] theorem State.raiseError_pins (s : State) (e : EncError) : (s.raiseError e).pins = s.pins := rfl
@[simp] theorem State.raiseError_sched (s : State) (e : EncError) : (s.raiseError e).sched = s.sched := rfl
@[simp] theorem State.raiseError_enc_est (s : State) (e : EncError) : (s.raiseError e).enc.est = s.enc.est := rfl
@[simp] theorem State.raiseError_enc_eq (s : State) (e : EncError) : (s.raiseError e).enc.eq = s.enc.eq := rfl
@[simp] theorem State.raiseError_enc_eidx (s : State) (e : EncError) : (s.raiseError e).enc.eidx = s.enc.eidx := rfl
@[simp] theorem State.raiseError_enc_errCode (s : State) (e : EncError) : (s.raiseError e).enc.errCode = e.code := rfl
@[simp] theorem State.raiseError_enc_errV (s : State) (e : EncError) : (s.raiseError e).enc.errV = true := rfl

/-! ### State.beginEdge -/
@[simp] theorem State.beginEdge_params (s : State) : (s.beginEdge).params = s.params := rfl
@[simp] theorem State.beginEdge_dec (s : State) : (s.beginEdge).dec = s.dec := rfl
@[simp] theorem State.beginEdge_pins (s : State) : (s.beginEdge).pins = s.pins := rfl
@[simp] theorem State.beginEdge_sched (s : State) : (s.beginEdge).sched = s.sched := rfl
@[simp] theorem State.beginEdge_enc_est (s : State) : (s.beginEdge).enc.est = s.enc.est := rfl
@[simp] theorem State.beginEdge_enc_eq (s : State) : (s.beginEdge).enc.eq = s.enc.eq := rfl
@[simp] theorem State.beginEdge_enc_eidx (s : State) : (s.beginEdge).enc.eidx = s.enc.eidx := rfl
@[simp] theorem State.beginEdge_enc_errCode (s : State) : (s.beginEdge).enc.errCode = s.enc.errCode := rfl
@[simp] theorem State.beginEdge_pulses (s : State) : (s.beginEdge).pulses = EvPulses.none := rfl
@[simp] theorem State.beginEdge_enc_errV (s : State) : (s.beginEdge).enc.errV = false := rfl

/-! ### State.resetEdge -/
@[simp] theorem State.resetEdge_params (s : State) : (s.resetEdge).params = s.params := rfl
@[simp] theorem State.resetEdge_pins (s : State) : (s.resetEdge).pins = s.pins := rfl
@[simp] theorem State.resetEdge_sched (s : State) : (s.resetEdge).sched = s.sched := rfl
@[simp] theorem State.resetEdge_dec (s : State) : (s.resetEdge).dec = { DecState.reset with fobGen := s.dec.fobGen + 1 } := rfl
@[simp] theorem State.resetEdge_pulses (s : State) : (s.resetEdge).pulses = EvPulses.none := rfl
@[simp] theorem State.resetEdge_enc (s : State) : (s.resetEdge).enc = EncState.reset := rfl

/-! ### State.nextCycle -/
@[simp] theorem State.nextCycle_params (s : State) : (s.nextCycle).params = s.params := rfl
@[simp] theorem State.nextCycle_dec (s : State) : (s.nextCycle).dec = s.dec := rfl
@[simp] theorem State.nextCycle_pulses (s : State) : (s.nextCycle).pulses = s.pulses := rfl
@[simp] theorem State.nextCycle_enc (s : State) : (s.nextCycle).enc = s.enc := rfl
@[simp] theorem State.nextCycle_pins (s : State) : (s.nextCycle).pins = s.sched.headD Pins.idle := rfl
@[simp] theorem State.nextCycle_sched (s : State) : (s.nextCycle).sched = s.sched.tail := rfl

/-! ### State.sending -/
@[simp] theorem State.sending_params (s : State) (L : List Byte) : (s.sending L).params = s.params := rfl
@[simp] theorem State.sending_dec (s : State) (L : List Byte) : (s.sending L).dec = s.dec := rfl
@[simp] theorem State.sending_pulses (s : State) (L : List Byte) : (s.sending L).pulses = s.pulses := rfl
@[simp] theorem State.sending_pins (s : State) (L : List Byte) : (s.sending L).pins = s.pins := rfl
@[simp] theorem State.sending_sched (s : State) (L : List Byte) : (s.sending L).sched = s.sched := rfl
@[simp] theorem State.sending_enc_est (s : State) (L : List Byte) : (s.sending L).enc.est = .send := rfl
@[simp] theorem State.sending_enc_eq (s : State) (L : List Byte) : (s.sending L).enc.eq = L := rfl
@[simp] theorem State.sending_enc_eidx (s : State) (L : List Byte) : (s.sending L).enc.eidx = 0 := rfl
@[simp] theorem State.sending_enc_errCode (s : State) (L : List Byte) : (s.sending L).enc.errCode = 0 := rfl
@[simp] theorem State.sending_enc_errV (s : State) (L : List Byte) : (s.sending L).enc.errV = false := rfl

/-! ### State.failing -/
@[simp] theorem State.failing_params (s : State) (c : BitVec 2) : (s.failing c).params = s.params := rfl
@[simp] theorem State.failing_dec (s : State) (c : BitVec 2) : (s.failing c).dec = s.dec := rfl
@[simp] theorem State.failing_pulses (s : State) (c : BitVec 2) : (s.failing c).pulses = s.pulses := rfl
@[simp] theorem State.failing_pins (s : State) (c : BitVec 2) : (s.failing c).pins = s.pins := rfl
@[simp] theorem State.failing_sched (s : State) (c : BitVec 2) : (s.failing c).sched = s.sched := rfl
@[simp] theorem State.failing_enc_est (s : State) (c : BitVec 2) : (s.failing c).enc.est = s.enc.est := rfl
@[simp] theorem State.failing_enc_eq (s : State) (c : BitVec 2) : (s.failing c).enc.eq = s.enc.eq := rfl
@[simp] theorem State.failing_enc_eidx (s : State) (c : BitVec 2) : (s.failing c).enc.eidx = s.enc.eidx := rfl
@[simp] theorem State.failing_enc_errCode (s : State) (c : BitVec 2) : (s.failing c).enc.errCode = c := rfl
@[simp] theorem State.failing_enc_errV (s : State) (c : BitVec 2) : (s.failing c).enc.errV = true := rfl

/-! ### toIdle -/
@[simp] theorem toIdle_st (d : DecState) : (toIdle d).st = .idle := rfl
@[simp] theorem toIdle_run (d : DecState) : (toIdle d).run = 0 := rfl
@[simp] theorem toIdle_acc (d : DecState) : (toIdle d).acc = d.acc := rfl
@[simp] theorem toIdle_cnt (d : DecState) : (toIdle d).cnt = 0 := rfl
@[simp] theorem toIdle_drop (d : DecState) : (toIdle d).drop = false := rfl
@[simp] theorem toIdle_ovfSeen (d : DecState) : (toIdle d).ovfSeen = d.ovfSeen := rfl
@[simp] theorem toIdle_curPage (d : DecState) : (toIdle d).curPage = d.curPage := rfl
@[simp] theorem toIdle_curPageV (d : DecState) : (toIdle d).curPageV = d.curPageV := rfl
@[simp] theorem toIdle_fob (d : DecState) : (toIdle d).fob = d.fob := rfl
@[simp] theorem toIdle_fobLen (d : DecState) : (toIdle d).fobLen = d.fobLen := rfl
@[simp] theorem toIdle_fobGen (d : DecState) : (toIdle d).fobGen = d.fobGen := rfl
@[simp] theorem toIdle_tpPage (d : DecState) : (toIdle d).tpPage = d.tpPage := rfl
@[simp] theorem toIdle_tpId (d : DecState) : (toIdle d).tpId = d.tpId := rfl
@[simp] theorem toIdle_tpState (d : DecState) : (toIdle d).tpState = d.tpState := rfl
@[simp] theorem toIdle_tpFv (d : DecState) : (toIdle d).tpFv = d.tpFv := rfl
@[simp] theorem toIdle_pgPage (d : DecState) : (toIdle d).pgPage = d.pgPage := rfl
@[simp] theorem toIdle_pgFv (d : DecState) : (toIdle d).pgFv = d.pgFv := rfl

/-! ### classifyTouch -/
@[simp] theorem classifyTouch_st (F : List Byte) (d : DecState) : ((classifyTouch F d).1).st = d.st := rfl
@[simp] theorem classifyTouch_run (F : List Byte) (d : DecState) : ((classifyTouch F d).1).run = d.run := rfl
@[simp] theorem classifyTouch_acc (F : List Byte) (d : DecState) : ((classifyTouch F d).1).acc = d.acc := rfl
@[simp] theorem classifyTouch_cnt (F : List Byte) (d : DecState) : ((classifyTouch F d).1).cnt = d.cnt := rfl
@[simp] theorem classifyTouch_drop (F : List Byte) (d : DecState) : ((classifyTouch F d).1).drop = d.drop := rfl
@[simp] theorem classifyTouch_ovfSeen (F : List Byte) (d : DecState) : ((classifyTouch F d).1).ovfSeen = d.ovfSeen := rfl
@[simp] theorem classifyTouch_curPage (F : List Byte) (d : DecState) : ((classifyTouch F d).1).curPage = d.curPage := rfl
@[simp] theorem classifyTouch_curPageV (F : List Byte) (d : DecState) : ((classifyTouch F d).1).curPageV = d.curPageV := rfl
@[simp] theorem classifyTouch_fob (F : List Byte) (d : DecState) : ((classifyTouch F d).1).fob = d.fob := rfl
@[simp] theorem classifyTouch_fobLen (F : List Byte) (d : DecState) : ((classifyTouch F d).1).fobLen = d.fobLen := rfl
@[simp] theorem classifyTouch_fobGen (F : List Byte) (d : DecState) : ((classifyTouch F d).1).fobGen = d.fobGen := rfl
@[simp] theorem classifyTouch_tpPage (F : List Byte) (d : DecState) : ((classifyTouch F d).1).tpPage = fieldValue F[1]? := rfl
@[simp] theorem classifyTouch_tpId (F : List Byte) (d : DecState) : ((classifyTouch F d).1).tpId = fieldValue F[2]? := rfl
@[simp] theorem classifyTouch_tpState (F : List Byte) (d : DecState) : ((classifyTouch F d).1).tpState = fieldValue F[3]? := rfl
@[simp] theorem classifyTouch_tpFv (F : List Byte) (d : DecState) : ((classifyTouch F d).1).tpFv = touchPresent F[1]? F[2]? F[3]? := rfl
@[simp] theorem classifyTouch_pgPage (F : List Byte) (d : DecState) : ((classifyTouch F d).1).pgPage = d.pgPage := rfl
@[simp] theorem classifyTouch_pgFv (F : List Byte) (d : DecState) : ((classifyTouch F d).1).pgFv = d.pgFv := rfl

/-! ### classifyPage -/
@[simp] theorem classifyPage_st (F : List Byte) (d : DecState) : ((classifyPage F d).1).st = d.st := rfl
@[simp] theorem classifyPage_run (F : List Byte) (d : DecState) : ((classifyPage F d).1).run = d.run := rfl
@[simp] theorem classifyPage_acc (F : List Byte) (d : DecState) : ((classifyPage F d).1).acc = d.acc := rfl
@[simp] theorem classifyPage_cnt (F : List Byte) (d : DecState) : ((classifyPage F d).1).cnt = d.cnt := rfl
@[simp] theorem classifyPage_drop (F : List Byte) (d : DecState) : ((classifyPage F d).1).drop = d.drop := rfl
@[simp] theorem classifyPage_ovfSeen (F : List Byte) (d : DecState) : ((classifyPage F d).1).ovfSeen = d.ovfSeen := rfl
@[simp] theorem classifyPage_curPage (F : List Byte) (d : DecState) : ((classifyPage F d).1).curPage = F[1]?.getD d.curPage := rfl
@[simp] theorem classifyPage_curPageV (F : List Byte) (d : DecState) : ((classifyPage F d).1).curPageV = (F[1]?.isSome || d.curPageV) := rfl
@[simp] theorem classifyPage_fob (F : List Byte) (d : DecState) : ((classifyPage F d).1).fob = d.fob := rfl
@[simp] theorem classifyPage_fobLen (F : List Byte) (d : DecState) : ((classifyPage F d).1).fobLen = d.fobLen := rfl
@[simp] theorem classifyPage_fobGen (F : List Byte) (d : DecState) : ((classifyPage F d).1).fobGen = d.fobGen := rfl
@[simp] theorem classifyPage_tpPage (F : List Byte) (d : DecState) : ((classifyPage F d).1).tpPage = d.tpPage := rfl
@[simp] theorem classifyPage_tpId (F : List Byte) (d : DecState) : ((classifyPage F d).1).tpId = d.tpId := rfl
@[simp] theorem classifyPage_tpState (F : List Byte) (d : DecState) : ((classifyPage F d).1).tpState = d.tpState := rfl
@[simp] theorem classifyPage_tpFv (F : List Byte) (d : DecState) : ((classifyPage F d).1).tpFv = d.tpFv := rfl
@[simp] theorem classifyPage_pgPage (F : List Byte) (d : DecState) : ((classifyPage F d).1).pgPage = fieldValue F[1]? := rfl
@[simp] theorem classifyPage_pgFv (F : List Byte) (d : DecState) : ((classifyPage F d).1).pgFv = F[1]?.isSome := rfl

/-! ### State.reset -/
@[simp] theorem State.resetOf_params (p : Config.Params) : (State.resetOf p).params = p := rfl
@[simp] theorem State.resetOf_dec (p : Config.Params) : (State.resetOf p).dec = DecState.reset := rfl
@[simp] theorem State.resetOf_pulses (p : Config.Params) : (State.resetOf p).pulses = EvPulses.none := rfl
@[simp] theorem State.resetOf_enc (p : Config.Params) : (State.resetOf p).enc = EncState.reset := rfl
@[simp] theorem State.resetOf_pins (p : Config.Params) : (State.resetOf p).pins = Pins.idle := rfl
@[simp] theorem State.resetOf_sched (p : Config.Params) : (State.resetOf p).sched = [] := rfl

/-! ### Pins.quiet -/
@[simp] theorem Pins.quiet_rst (p : Pins) : (p.quiet).rst = false := rfl
@[simp] theorem Pins.quiet_rx (p : Pins) : (p.quiet).rx = [] := rfl
@[simp] theorem Pins.quiet_cmdValid (p : Pins) : (p.quiet).cmdValid = false := rfl
@[simp] theorem Pins.quiet_txReady (p : Pins) : (p.quiet).txReady = false := rfl
@[simp] theorem Pins.quiet_cmd (p : Pins) : (p.quiet).cmd = p.cmd := rfl
@[simp] theorem Pins.quiet_ccR (p : Pins) : (p.quiet).ccR = p.ccR := rfl
@[simp] theorem Pins.quiet_ccG (p : Pins) : (p.quiet).ccG = p.ccG := rfl
@[simp] theorem Pins.quiet_ccB (p : Pins) : (p.quiet).ccB = p.ccB := rfl
@[simp] theorem Pins.quiet_ccHexLen (p : Pins) : (p.quiet).ccHexLen = p.ccHexLen := rfl
@[simp] theorem Pins.quiet_ccHex (p : Pins) : (p.quiet).ccHex = p.ccHex := rfl
@[simp] theorem Pins.quiet_fobRaddr (p : Pins) : (p.quiet).fobRaddr = p.fobRaddr := rfl

/-! ### enterFrame: only `st`, `cnt`, `run` and `drop` can change -/

@[simp] theorem enterFrame_acc (d : DecState) : (enterFrame d).acc = d.acc := by
  unfold enterFrame; split <;> rfl
@[simp] theorem enterFrame_ovfSeen (d : DecState) : (enterFrame d).ovfSeen = d.ovfSeen := by
  unfold enterFrame; split <;> rfl
@[simp] theorem enterFrame_curPage (d : DecState) : (enterFrame d).curPage = d.curPage := by
  unfold enterFrame; split <;> rfl
@[simp] theorem enterFrame_curPageV (d : DecState) : (enterFrame d).curPageV = d.curPageV := by
  unfold enterFrame; split <;> rfl
@[simp] theorem enterFrame_fob (d : DecState) : (enterFrame d).fob = d.fob := by
  unfold enterFrame; split <;> rfl
@[simp] theorem enterFrame_fobLen (d : DecState) : (enterFrame d).fobLen = d.fobLen := by
  unfold enterFrame; split <;> rfl
@[simp] theorem enterFrame_fobGen (d : DecState) : (enterFrame d).fobGen = d.fobGen := by
  unfold enterFrame; split <;> rfl
@[simp] theorem enterFrame_tpPage (d : DecState) : (enterFrame d).tpPage = d.tpPage := by
  unfold enterFrame; split <;> rfl
@[simp] theorem enterFrame_tpId (d : DecState) : (enterFrame d).tpId = d.tpId := by
  unfold enterFrame; split <;> rfl
@[simp] theorem enterFrame_tpState (d : DecState) : (enterFrame d).tpState = d.tpState := by
  unfold enterFrame; split <;> rfl
@[simp] theorem enterFrame_tpFv (d : DecState) : (enterFrame d).tpFv = d.tpFv := by
  unfold enterFrame; split <;> rfl
@[simp] theorem enterFrame_pgPage (d : DecState) : (enterFrame d).pgPage = d.pgPage := by
  unfold enterFrame; split <;> rfl
@[simp] theorem enterFrame_pgFv (d : DecState) : (enterFrame d).pgFv = d.pgFv := by
  unfold enterFrame; split <;> rfl
@[simp] theorem enterFrame_st (d : DecState) : (enterFrame d).st = .recv := by
  unfold enterFrame; split <;> simp_all
theorem enterFrame_cnt (d : DecState) : (enterFrame d).cnt = if d.st = .idle then 0 else d.cnt := by
  unfold enterFrame; split <;> simp_all
theorem enterFrame_run (d : DecState) : (enterFrame d).run = if d.st = .idle then 0 else d.run := by
  unfold enterFrame; split <;> simp_all
theorem enterFrame_drop (d : DecState) : (enterFrame d).drop = if d.st = .idle then false else d.drop := by
  unfold enterFrame; split <;> simp_all

/-! ### sendByte and endEdge: only ENC's sending registers, the pins and the schedule can change -/

@[simp] theorem State.sendByte_params (s : State) : s.sendByte.params = s.params := by
  unfold State.sendByte; split <;> rfl
@[simp] theorem State.sendByte_dec (s : State) : s.sendByte.dec = s.dec := by
  unfold State.sendByte; split <;> rfl
@[simp] theorem State.sendByte_pulses (s : State) : s.sendByte.pulses = s.pulses := by
  unfold State.sendByte; split <;> rfl
@[simp] theorem State.sendByte_pins (s : State) : s.sendByte.pins = s.pins := by
  unfold State.sendByte; split <;> rfl
@[simp] theorem State.sendByte_sched (s : State) : s.sendByte.sched = s.sched := by
  unfold State.sendByte; split <;> rfl
@[simp] theorem State.sendByte_enc_errCode (s : State) : s.sendByte.enc.errCode = s.enc.errCode := by
  unfold State.sendByte; split <;> rfl
@[simp] theorem State.sendByte_enc_errV (s : State) : s.sendByte.enc.errV = s.enc.errV := by
  unfold State.sendByte; split <;> rfl
@[simp] theorem State.endEdge_params (s t : State) : (s.endEdge t).params = t.params := by
  unfold State.endEdge; split <;> simp
@[simp] theorem State.endEdge_dec (s t : State) : (s.endEdge t).dec = t.dec := by
  unfold State.endEdge; split <;> simp
@[simp] theorem State.endEdge_pulses (s t : State) : (s.endEdge t).pulses = t.pulses := by
  unfold State.endEdge; split <;> simp
@[simp] theorem State.endEdge_enc_errCode (s t : State) : (s.endEdge t).enc.errCode = t.enc.errCode := by
  unfold State.endEdge; split <;> simp
@[simp] theorem State.endEdge_enc_errV (s t : State) : (s.endEdge t).enc.errV = t.enc.errV := by
  unfold State.endEdge; split <;> simp
@[simp] theorem State.endEdge_pins (s t : State) : (s.endEdge t).pins = t.sched.headD Pins.idle := by
  unfold State.endEdge; split <;> simp
@[simp] theorem State.endEdge_sched (s t : State) : (s.endEdge t).sched = t.sched.tail := by
  unfold State.endEdge; split <;> simp

/-! ### classify: only the typed registers can change -/

@[simp] theorem classify_st (F : List Byte) (d : DecState) : (classify F d).1.st = d.st := by
  unfold classify; split
  · rfl
  · split
    · rfl
    · split <;> rfl
@[simp] theorem classify_run (F : List Byte) (d : DecState) : (classify F d).1.run = d.run := by
  unfold classify; split
  · rfl
  · split
    · rfl
    · split <;> rfl
@[simp] theorem classify_acc (F : List Byte) (d : DecState) : (classify F d).1.acc = d.acc := by
  unfold classify; split
  · rfl
  · split
    · rfl
    · split <;> rfl
@[simp] theorem classify_cnt (F : List Byte) (d : DecState) : (classify F d).1.cnt = d.cnt := by
  unfold classify; split
  · rfl
  · split
    · rfl
    · split <;> rfl
@[simp] theorem classify_drop (F : List Byte) (d : DecState) : (classify F d).1.drop = d.drop := by
  unfold classify; split
  · rfl
  · split
    · rfl
    · split <;> rfl
@[simp] theorem classify_ovfSeen (F : List Byte) (d : DecState) : (classify F d).1.ovfSeen = d.ovfSeen := by
  unfold classify; split
  · rfl
  · split
    · rfl
    · split <;> rfl
@[simp] theorem classify_fob (F : List Byte) (d : DecState) : (classify F d).1.fob = d.fob := by
  unfold classify; split
  · rfl
  · split
    · rfl
    · split <;> rfl
@[simp] theorem classify_fobLen (F : List Byte) (d : DecState) : (classify F d).1.fobLen = d.fobLen := by
  unfold classify; split
  · rfl
  · split
    · rfl
    · split <;> rfl
@[simp] theorem classify_fobGen (F : List Byte) (d : DecState) : (classify F d).1.fobGen = d.fobGen := by
  unfold classify; split
  · rfl
  · split
    · rfl
    · split <;> rfl

end Sys2Proof.Machine
end

