-- ==== Sys2Proof/Laws/Decoder.lean ====
section
/-! SUPPORT. What the decoder's shared operations can do, each said once. -/

namespace Sys2Proof.Machine

theorem below_le {o : Option Nat} {n : Nat} (h : Config.below o n = true) : Config.within o (n + 1) = true := by
  cases o <;> simp_all [Config.below, Config.within]

theorem within_of_le {o : Option Nat} {n k : Nat} (h : Config.within o n = true) (hk : k ≤ n) :
    Config.within o k = true := by
  cases o <;> simp_all [Config.within]
  omega

theorem within_frameMax {p : Config.Params} {n : Nat} (h : Config.within p.bufCap n = true) :
    Config.within p.frameMax (n - 3) = true := by
  unfold Config.Params.frameMax
  cases hb : p.bufCap <;> simp_all [Config.within]
  omega

theorem accumulate_room {p : Config.Params} {d : DecState} (h : Config.below p.bufCap d.cnt = true) (b : Byte) :
    accumulate p d b = .ok { d with acc := memWrite d.acc d.cnt b, cnt := d.cnt + 1 } := by
  simp [accumulate, accWrite, h]

theorem accumulate_full {p : Config.Params} {d : DecState} (h : Config.below p.bufCap d.cnt = false) (b : Byte) :
    accumulate p d b = .ok { d with drop := true, ovfSeen := true } := by
  simp [accumulate, h]

theorem complete_dropped {p : Config.Params} {d : DecState} (h : d.drop = true) :
    complete p d = .ok (toIdle d, [.frameDropped]) := by
  simp [complete, h]

/-- DEC with a decoded frame in FOB. -/
def delivered (d : DecState) (F : List Byte) : DecState :=
  { d with fob := memWriteList d.fob 0 F, fobLen := F.length, fobGen := d.fobGen + 1 }

theorem complete_delivered {p : Config.Params} {d : DecState} (h : d.drop = false)
    (hc : Config.within p.bufCap d.cnt = true) :
    complete p d =
      .ok (toIdle (classify (memPrefix d.acc (d.cnt - 3)) (delivered d (memPrefix d.acc (d.cnt - 3)))).1,
        .receivedData (memPrefix d.acc (d.cnt - 3)) ::
          (classify (memPrefix d.acc (d.cnt - 3)) (delivered d (memPrefix d.acc (d.cnt - 3)))).2) := by
  have h1 : Config.within p.bufCap (d.cnt - 3) = true := within_of_le hc (by omega)
  have h2 := within_frameMax hc
  simp [complete, h, accPrefix, h1, fobStore, h2, delivered]

/-- DEC after the byte `b` was appended to the frame in progress. -/
def appended (d : DecState) (b : Byte) : DecState :=
  { enterFrame d with acc := memWrite d.acc (enterFrame d).cnt b, cnt := (enterFrame d).cnt + 1 }

/-- DEC after a byte was discarded for overflow. -/
def overflowed (d : DecState) : DecState := { enterFrame d with drop := true, ovfSeen := true }

/-- Everything `dec_step` can do: the byte is appended or discarded; the frame goes on, is dropped, or is
delivered. It never fails. -/
theorem decStep_cases (p : Config.Params) (d : DecState) (b : Byte) :
    (countTerm (enterFrame d).run b ≠ 3 ∧ Config.below p.bufCap (enterFrame d).cnt = true ∧
      decStep p d b = .ok ({ appended d b with run := countTerm (enterFrame d).run b }, [])) ∨
    (countTerm (enterFrame d).run b ≠ 3 ∧ Config.below p.bufCap (enterFrame d).cnt = false ∧
      decStep p d b = .ok ({ overflowed d with run := countTerm (enterFrame d).run b }, [])) ∨
    (countTerm (enterFrame d).run b = 3 ∧ Config.below p.bufCap (enterFrame d).cnt = true ∧
      (enterFrame d).drop = true ∧ decStep p d b = .ok (toIdle (appended d b), [.frameDropped])) ∨
    (countTerm (enterFrame d).run b = 3 ∧ Config.below p.bufCap (enterFrame d).cnt = false ∧
      decStep p d b = .ok (toIdle (overflowed d), [.frameDropped])) ∨
    (countTerm (enterFrame d).run b = 3 ∧ Config.below p.bufCap (enterFrame d).cnt = true ∧
      (enterFrame d).drop = false ∧ ∃ F, F = memPrefix (appended d b).acc ((enterFrame d).cnt - 2) ∧
      decStep p d b =
        .ok (toIdle (classify F (delivered (appended d b) F)).1,
          .receivedData F :: (classify F (delivered (appended d b) F)).2)) := by
  cases hroom : Config.below p.bufCap (enterFrame d).cnt
  · have ha := accumulate_full hroom b
    by_cases hc : countTerm (enterFrame d).run b = 3
    · right; right; right; left
      refine ⟨hc, rfl, ?_⟩
      simp only [decStep, ha, if_pos hc]
      exact complete_dropped rfl
    · right; left
      refine ⟨hc, rfl, ?_⟩
      simp only [decStep, ha, if_neg hc]
      rfl
  · have ha := accumulate_room hroom b
    rw [enterFrame_acc] at ha
    by_cases hc : countTerm (enterFrame d).run b = 3
    · cases hd : (enterFrame d).drop
      · right; right; right; right
        refine ⟨hc, rfl, rfl, _, rfl, ?_⟩
        simp only [decStep, ha, if_pos hc]
        exact complete_delivered hd (below_le hroom)
      · right; right; left
        refine ⟨hc, rfl, rfl, ?_⟩
        simp only [decStep, ha, if_pos hc]
        exact complete_dropped hd
    · left
      refine ⟨hc, rfl, ?_⟩
      simp only [decStep, ha, if_neg hc]
      rfl

theorem decStep_isOk (p : Config.Params) (d : DecState) (b : Byte) : ∃ e evs, decStep p d b = .ok (e, evs) := by
  rcases decStep_cases p d b with h | h | h | h | ⟨_, _, _, _, _, h⟩
  · exact ⟨_, _, h.2.2⟩
  · exact ⟨_, _, h.2.2⟩
  · exact ⟨_, _, h.2.2.2⟩
  · exact ⟨_, _, h.2.2⟩
  · exact ⟨_, _, h⟩

@[simp] theorem decIngest_nil (p : Config.Params) (d : DecState) : decIngest p d [] = .ok (d, []) := rfl

theorem decIngest_cons {p : Config.Params} {d d1 d2 : DecState} {b : Byte} {bs : List Byte} {e1 e2 : List DecEvent}
    (h1 : decStep p d b = .ok (d1, e1)) (h2 : decIngest p d1 bs = .ok (d2, e2)) :
    decIngest p d (b :: bs) = .ok (d2, e1 ++ e2) := by
  simp [decIngest, h1, h2]

/-- What `dec_ingest` of a byte and a rest went through. -/
theorem decIngest_cons_inv {p : Config.Params} {d d2 : DecState} {b : Byte} {bs : List Byte} {evs : List DecEvent}
    (h : decIngest p d (b :: bs) = .ok (d2, evs)) :
    ∃ d1 e1 e2, decStep p d b = .ok (d1, e1) ∧ decIngest p d1 bs = .ok (d2, e2) ∧ evs = e1 ++ e2 := by
  obtain ⟨d1, e1, h1⟩ := decStep_isOk p d b
  simp only [decIngest, h1] at h
  split at h
  · cases h
  next h2 =>
    cases h
    exact ⟨_, _, _, h1, h2, rfl⟩

theorem decIngest_isOk (p : Config.Params) (d : DecState) (bs : List Byte) :
    ∃ e evs, decIngest p d bs = .ok (e, evs) := by
  induction bs generalizing d with
  | nil => exact ⟨_, _, rfl⟩
  | cons b bs ih =>
    obtain ⟨d1, e1, h1⟩ := decStep_isOk p d b
    obtain ⟨d2, e2, h2⟩ := ih d1
    exact ⟨_, _, decIngest_cons h1 h2⟩

/-- One accepted byte: DEC and its pulses as `dec_step` gives them, and nothing else. -/
theorem acceptByte_next {s : State} {b : Byte} {d : DecState} {evs : List DecEvent}
    (h : decStep s.params s.dec b = .ok (d, evs)) :
    s.acceptByte b = .next { s with dec := d, pulses := pulsesOf evs } := by
  simp [State.acceptByte, h]

@[simp] theorem acceptBytes_nil (s : State) : s.acceptBytes [] = .next s := rfl

theorem acceptBytes_cons {s t : State} {b : Byte} (h : s.acceptByte b = .next t) (bs : List Byte) :
    s.acceptBytes (b :: bs) = t.acceptBytes bs := by
  simp [State.acceptBytes, h]

/-- A list of accepted bytes: DEC as `dec_ingest` gives it, some pulses, and nothing else. -/
theorem acceptBytes_next (s : State) (bs : List Byte) :
    ∃ d evs pulses, decIngest s.params s.dec bs = .ok (d, evs) ∧
      s.acceptBytes bs = .next { s with dec := d, pulses := pulses } := by
  induction bs generalizing s with
  | nil => exact ⟨_, _, s.pulses, rfl, rfl⟩
  | cons b bs ih =>
    obtain ⟨d1, e1, h1⟩ := decStep_isOk s.params s.dec b
    obtain ⟨d, e2, pulses, h2, h3⟩ := ih { s with dec := d1, pulses := pulsesOf e1 }
    exact ⟨d, _, pulses, decIngest_cons h1 h2, by rw [acceptBytes_cons (acceptByte_next h1), h3]⟩

end Sys2Proof.Machine
end

