-- ==== Sys2Proof/Laws/Encoder.lean ====
section
/-! SUPPORT. What the encoder's shared operations can do, each said once. -/

namespace Sys2Proof.Machine

/-- Everything offering a command can do: wait in E_SEND; in E_IDLE queue its bytes, or raise its error. -/
theorem acceptCommand_cases (s : State) (r : Except EncError (List Byte)) :
    (s.enc.est = .send ∧ s.acceptCommand r = .next s) ∨
    (s.enc.est = .idle ∧ ∃ L, r = .ok L ∧ s.acceptCommand r = .next (s.sending L)) ∨
    (s.enc.est = .idle ∧ ∃ e, r = .error e ∧ s.acceptCommand r = .next (s.failing e.code)) := by
  cases h : s.enc.est
  · cases r with
    | ok L => exact .inr (.inl ⟨rfl, L, rfl, by simp [State.acceptCommand, h]; rfl⟩)
    | error e => exact .inr (.inr ⟨rfl, e, rfl, by simp [State.acceptCommand, h]; rfl⟩)
  · exact .inl ⟨rfl, by simp [State.acceptCommand, h]⟩

theorem acceptCommand_idle_ok {s : State} (h : s.enc.est = .idle) (L : List Byte) :
    s.acceptCommand (.ok L) = .next (s.sending L) := by
  simp [State.acceptCommand, h]; rfl

theorem acceptCommand_idle_error {s : State} (h : s.enc.est = .idle) (e : EncError) :
    s.acceptCommand (.error e) = .next (s.failing e.code) := by
  simp [State.acceptCommand, h]; rfl

theorem acceptCommand_send {s : State} (h : s.enc.est = .send) (r : Except EncError (List Byte)) :
    s.acceptCommand r = .next s := by
  simp [State.acceptCommand, h]

/-- Sending a byte: the next one is up, or after the last ENC is idle with nothing queued. -/
theorem sendByte_cases (s : State) :
    (s.enc.eidx + 1 = s.enc.eq.length ∧
      s.sendByte = { s with enc := { s.enc with est := .idle, eq := [], eidx := 0 } }) ∨
    (s.enc.eidx + 1 ≠ s.enc.eq.length ∧ s.sendByte = { s with enc := { s.enc with eidx := s.enc.eidx + 1 } }) := by
  by_cases h : s.enc.eidx + 1 = s.enc.eq.length
  · exact .inl ⟨h, by simp [State.sendByte, h]⟩
  · exact .inr ⟨h, by simp [State.sendByte, h]⟩

theorem readString_ok {max : Nat} {a : StrArg} (h : a.len ≤ max) : readString max a = .ok (a.bytes.take a.len) := by
  simp [readString, stringValue, Nat.not_lt.mpr h]

theorem readString_error {max : Nat} {a : StrArg} (h : max < a.len) : readString max a = .error .illegalOp := by
  simp [readString, h]

theorem readString_length {max : Nat} {a : StrArg} {c : List Byte} (h : readString max a = .ok c) :
    c.length ≤ max := by
  unfold readString at h
  split at h
  · cases h
  · cases h
    simp only [stringValue, List.length_take]
    omega

end Sys2Proof.Machine
end

