-- ==== Sys2Proof/Laws/PerInstr.lean ====
section
/-! SUPPORT. What holds of every operation as syntax: written onto its port, a well-formed one fits the port. -/

namespace Sys2Proof.Laws

/-- What a port of an NPE with parameters `p` can carry: string arrays no longer than their ports, length fields
within `LW` bits, at least one inbound byte (30_encoding.md R57; 10_state.md R26, R29). -/
def PortFits (p : Config.Params) : PortWord → Prop
  | .descriptor d =>
    (d.comp.length ≤ p.compMax ∧ Config.below (p.lw.map (2 ^ ·)) d.compLen = true) ∧
    (d.text.length ≤ p.textMax ∧ Config.below (p.lw.map (2 ^ ·)) d.textLen = true) ∧
    d.chex.length ≤ Config.hexMax
  | .rx bytes => bytes ≠ []
  | .ccRgb _ _ _ => True
  | .ccHex _ bytes => bytes.length ≤ Config.hexMax

namespace EncodeFits

/-- The family: a well-formed operation fits its port. -/
def Statement (i : Instr) : Prop := ∀ p : Config.Params, i.wf p = true → PortFits p (encode i)

theorem below_pow_zero (o : Option Nat) : Config.below (o.map (2 ^ ·)) 0 = true := by
  cases o with
  | none => rfl
  | some n => simp [Config.below]

theorem strArg_fits {a : StrArg} {lw : Option Nat} {cap : Nat} (h : a.wf lw cap = true) :
    a.bytes.length ≤ cap ∧ Config.below (lw.map (2 ^ ·)) a.len = true := by
  simp only [StrArg.wf, Bool.and_eq_true, decide_eq_true_eq] at h
  exact ⟨h.1.2, h.1.1⟩

theorem hex_fits {len : BitVec 4} {bytes : List Byte} (h : hexWf len bytes = true) :
    bytes.length ≤ Config.hexMax := by
  simp only [hexWf, Bool.and_eq_true, decide_eq_true_eq] at h
  exact h.1

/-- A colour operand changes no string array but the hex one, which fits. -/
theorem colour_fits {p : Config.Params} {c : Colour} {d : Descriptor} (h : c.wf = true)
    (hd : PortFits p (.descriptor d)) : PortFits p (.descriptor (encodeColour c d)) := by
  cases c with
  | named k => exact hd
  | packed v => exact hd
  | rgb r g b => exact hd
  | hex len bytes => exact ⟨hd.1, hd.2.1, hex_fits h⟩

/-- A descriptor without string operands fits every port. -/
theorem bare_fits {p : Config.Params} {d : Descriptor} (hc : d.comp = [] ∧ d.compLen = 0)
    (ht : d.text = [] ∧ d.textLen = 0) (hx : d.chex = []) : PortFits p (.descriptor d) := by
  refine ⟨⟨?_, ?_⟩, ⟨?_, ?_⟩, ?_⟩
  · rw [hc.1]; exact Nat.zero_le _
  · rw [hc.2]; exact below_pow_zero _
  · rw [ht.1]; exact Nat.zero_le _
  · rw [ht.2]; exact below_pow_zero _
  · rw [hx]; exact Nat.zero_le _

/-- A descriptor whose only string operand is a component reference. -/
theorem comp_fits {p : Config.Params} {d : Descriptor} {a : StrArg} (ha : a.wf p.lw p.compMax = true)
    (hc : d.comp = a.bytes ∧ d.compLen = a.len) (ht : d.text = [] ∧ d.textLen = 0) (hx : d.chex = []) :
    PortFits p (.descriptor d) := by
  refine ⟨?_, ⟨?_, ?_⟩, ?_⟩
  · rw [hc.1, hc.2]; exact strArg_fits ha
  · rw [ht.1]; exact Nat.zero_le _
  · rw [ht.2]; exact below_pow_zero _
  · rw [hx]; exact Nat.zero_le _

theorem sendme : Statement .sendme := fun _ _ => bare_fits ⟨rfl, rfl⟩ ⟨rfl, rfl⟩ rfl
theorem page (n : Half) : Statement (.page n) := fun _ _ => bare_fits ⟨rfl, rfl⟩ ⟨rfl, rfl⟩ rfl
theorem setTxt (comp text : StrArg) : Statement (.setTxt comp text) := by
  intro p h
  simp only [Instr.wf, Bool.and_eq_true] at h
  exact ⟨strArg_fits h.1, strArg_fits h.2, Nat.zero_le _⟩
theorem vis (comp : StrArg) (visible : Bool) : Statement (.vis comp visible) :=
  fun _ h => comp_fits h ⟨rfl, rfl⟩ ⟨rfl, rfl⟩ rfl
theorem cir (x y r : Half) (col : Colour) : Statement (.cir x y r col) :=
  fun _ h => colour_fits h (bare_fits ⟨rfl, rfl⟩ ⟨rfl, rfl⟩ rfl)
theorem cirs (x y r : Half) (col : Colour) : Statement (.cirs x y r col) :=
  fun _ h => colour_fits h (bare_fits ⟨rfl, rfl⟩ ⟨rfl, rfl⟩ rfl)
theorem setBco (comp : StrArg) (col : Colour) : Statement (.setBco comp col) := by
  intro p h
  simp only [Instr.wf, Bool.and_eq_true] at h
  exact colour_fits h.2 (comp_fits h.1 ⟨rfl, rfl⟩ ⟨rfl, rfl⟩ rfl)
theorem click (comp : StrArg) : Statement (.click comp) := fun _ h => comp_fits h ⟨rfl, rfl⟩ ⟨rfl, rfl⟩ rfl
theorem raw (text : StrArg) : Statement (.raw text) :=
  fun _ h => ⟨⟨Nat.zero_le _, below_pow_zero _⟩, strArg_fits h, Nat.zero_le _⟩
theorem reserved9 : Statement .reserved9 := fun _ _ => bare_fits ⟨rfl, rfl⟩ ⟨rfl, rfl⟩ rfl
theorem reservedA : Statement .reservedA := fun _ _ => bare_fits ⟨rfl, rfl⟩ ⟨rfl, rfl⟩ rfl
theorem reservedB : Statement .reservedB := fun _ _ => bare_fits ⟨rfl, rfl⟩ ⟨rfl, rfl⟩ rfl
theorem reservedC : Statement .reservedC := fun _ _ => bare_fits ⟨rfl, rfl⟩ ⟨rfl, rfl⟩ rfl
theorem reservedD : Statement .reservedD := fun _ _ => bare_fits ⟨rfl, rfl⟩ ⟨rfl, rfl⟩ rfl
theorem reservedE : Statement .reservedE := fun _ _ => bare_fits ⟨rfl, rfl⟩ ⟨rfl, rfl⟩ rfl
theorem reservedF : Statement .reservedF := fun _ _ => bare_fits ⟨rfl, rfl⟩ ⟨rfl, rfl⟩ rfl
theorem ingest (b : Byte) : Statement (.ingest b) := fun _ _ => List.cons_ne_nil _ _
theorem term : Statement .term := fun _ _ => List.cons_ne_nil _ _
theorem touch (payload : List Byte) : Statement (.touch payload) := fun _ _ => List.cons_ne_nil _ _
theorem pageChanged (payload : List Byte) : Statement (.pageChanged payload) := fun _ _ => List.cons_ne_nil _ _
theorem otherFrame (frame : List Byte) : Statement (.otherFrame frame) :=
  fun _ _ => List.append_ne_nil_of_right_ne_nil _ (List.cons_ne_nil _ _)
theorem rgb565 (r g b : Byte) : Statement (.rgb565 r g b) := fun _ _ => trivial
theorem hex565 (len : BitVec 4) (bytes : List Byte) : Statement (.hex565 len bytes) := fun _ h => hex_fits h

end EncodeFits
end Sys2Proof.Laws
end

