-- ==== Sys2Proof/Laws/Step.lean ====
section
/-! SUPPORT. What a step does, said once. -/

namespace Sys2Proof.Machine

@[simp] theorem execAll_nil (s : State) : execAll s [] = .next s := rfl

theorem execAll_cons {s t : State} {i : Instr} (h : exec i s = .next t) (is : List Instr) :
    execAll s (i :: is) = execAll t is := by
  simp [execAll, h]

theorem execAll_append {s t : State} {is : List Instr} (h : execAll s is = .next t) (js : List Instr) :
    execAll s (is ++ js) = execAll t js := by
  induction is generalizing s with
  | nil => cases h; rfl
  | cons i is ih =>
    simp only [execAll, List.cons_append] at h ⊢
    split at h
    · simp_all
    · cases h
    · cases h

/-- Taking a list of bytes one by one is an INGEST for each. -/
theorem execAll_ingest (s : State) (bs : List Byte) : execAll s (bs.map Instr.ingest) = s.acceptBytes bs := by
  induction bs generalizing s with
  | nil => rfl
  | cons b bs ih =>
    simp only [List.map_cons, execAll, State.acceptBytes, exec, execIngest]
    cases s.acceptByte b with
    | next t => exact ih t
    | fault f => rfl
    | refused r => rfl

/-- A frame read by its tag is its bytes and the terminator. -/
theorem exec_decodeFrame (F : List Byte) (s : State) :
    exec (decodeFrame F) s = s.acceptBytes (F ++ Config.ff3) := by
  unfold decodeFrame
  split
  · rfl
  · split
    next h => subst h; rfl
    next =>
      split
      next h => subst h; rfl
      next => rfl

/-- Bytes that are one operation run as their bytes. -/
theorem exec_of_decodeRx {bs : List Byte} {i : Instr} (h : decodeRx bs = .ok i) (s : State) :
    exec i s = s.acceptBytes bs := by
  unfold decodeRx at h
  split at h
  · cases h
  next b =>
    cases h
    show s.acceptByte b = s.acceptBytes [b]
    simp only [State.acceptBytes]
    cases s.acceptByte b <;> rfl
  next =>
    simp only at h
    split at h
    next hd =>
      have hbs := List.take_append_drop (bs.length - 3) bs
      rw [hd] at hbs
      split at h
      next hF =>
        cases h
        rw [← hbs, hF]
        rfl
      next =>
        split at h
        · cases h
          rw [exec_decodeFrame, hbs]
        · cases h
    · cases h

/-- What stands on the byte port runs as its bytes. -/
theorem execAll_offeredRx (s : State) (bs : List Byte) : execAll s (offeredRx bs) = s.acceptBytes bs := by
  unfold offeredRx
  split
  next i h =>
    simp only [execAll, exec_of_decodeRx h]
    cases s.acceptBytes bs <;> rfl
  next => exact execAll_ingest s bs

/-- A descriptor runs as the acceptance of what `enc_encode` gives for it. -/
theorem exec_decodeDescriptor (d : Descriptor) (s : State) :
    exec (decodeDescriptor d) s = s.acceptCommand (encEncode s.params d) := by
  unfold decodeDescriptor encEncode
  have : d.op.toNat < 16 := d.op.isLt
  generalize d.op.toNat = n at this
  interval_cases n <;> rfl

/-- CC's operations on CC's own pins change nothing. -/
theorem execAll_offeredCc (s : State) : execAll s (offeredCc s.pins) = .next s := rfl

/-- ENC after the command on its pins, if any, was offered. -/
def afterCommand (s : State) : State :=
  if s.pins.cmdValid ∧ s.enc.est = .idle then
    match encEncode s.params s.pins.cmd with
    | .ok L => s.sending L
    | .error e => s.failing e.code
  else s

theorem execAll_offeredCmd (s : State) : execAll s (offeredCmd s.pins) = .next (afterCommand s) := by
  unfold offeredCmd afterCommand
  cases hv : s.pins.cmdValid
  · simp
  · simp only [if_true, execAll, exec_decodeDescriptor]
    rcases acceptCommand_cases s (encEncode s.params s.pins.cmd) with ⟨h, hc⟩ | ⟨h, L, hL, hc⟩ | ⟨h, e, he, hc⟩
    · simp [hc, h]
    · rw [hc]; simp [h, hL]
    · rw [hc]; simp [h, he]

@[simp] theorem afterCommand_params (s : State) : (afterCommand s).params = s.params := by
  unfold afterCommand; split
  · split <;> rfl
  · rfl
@[simp] theorem afterCommand_dec (s : State) : (afterCommand s).dec = s.dec := by
  unfold afterCommand; split
  · split <;> rfl
  · rfl
@[simp] theorem afterCommand_pulses (s : State) : (afterCommand s).pulses = s.pulses := by
  unfold afterCommand; split
  · split <;> rfl
  · rfl
@[simp] theorem afterCommand_pins (s : State) : (afterCommand s).pins = s.pins := by
  unfold afterCommand; split
  · split <;> rfl
  · rfl
@[simp] theorem afterCommand_sched (s : State) : (afterCommand s).sched = s.sched := by
  unfold afterCommand; split
  · split <;> rfl
  · rfl

/-- What the command on the pins makes of ENC depends on ENC, the parameters and the command pins alone. -/
theorem afterCommand_enc (s : State) (d : DecState) (q : EvPulses) :
    (afterCommand { s with dec := d, pulses := q }).enc = (afterCommand s).enc := by
  unfold afterCommand
  simp only
  split
  · split <;> rfl
  · rfl

/-- Everything a step can do: load the reset values, or take the bytes on its pins (`dec_ingest`), offer the
command on its pins, and send the byte that was taken. It always answers. -/
theorem step_cases (s : State) :
    (s.pins.rst = true ∧ step s = .next s.resetEdge.nextCycle) ∨
    (s.pins.rst = false ∧ ∃ d evs pulses,
      decIngest s.params s.dec s.pins.rx = .ok (d, evs) ∧
      s.beginEdge.acceptBytes s.pins.rx = .next { s.beginEdge with dec := d, pulses := pulses } ∧
      step s = .next (s.endEdge (afterCommand { s.beginEdge with dec := d, pulses := pulses }))) := by
  cases hr : s.pins.rst
  · right
    obtain ⟨d, evs, pulses, h1, h2⟩ := acceptBytes_next s.beginEdge s.pins.rx
    refine ⟨rfl, d, evs, pulses, h1, h2, ?_⟩
    have h3 : execAll s.beginEdge s.offered =
        .next (afterCommand { s.beginEdge with dec := d, pulses := pulses }) := by
      unfold State.offered
      rw [List.append_assoc, execAll_append (t := { s.beginEdge with dec := d, pulses := pulses })
        (by rw [execAll_offeredRx, h2])]
      generalize hu : ({ s.beginEdge with dec := d, pulses := pulses } : State) = u
      have hp : s.pins = u.pins := by subst hu; rfl
      rw [hp, execAll_append (execAll_offeredCmd u), ← afterCommand_pins u]
      exact execAll_offeredCc (afterCommand u)
    simp [step, hr, h3]
  · left
    exact ⟨rfl, by simp [step, hr]⟩

end Sys2Proof.Machine
end

