-- ==== Sys2Proof/Tests/Slice0.lean ====
section
/-! SUPPORT. Small tests: ill-formed operations refused, words written out from the spec's encodings, vectors of
95_test_vectors.md, and a witness for the hypotheses of every statement that has some. Expected values come from
the spec's files named beside each test. -/

namespace Sys2Proof.Tests

open Sys2Proof.Machine

/-! ## Helpers -/

/-- `BUF_CAP` = 7, `COMP_MAX` = 2, `TEXT_MAX` = 5. -/
def small : Config.Params := { bufCap := some 7, compMax := 2, textMax := 5 }

/-- Reset, with the parameters `small`. -/
def start : State := State.resetOf small

/-- Pins with a transport that is ready and nothing else. -/
def ready : Pins := { Pins.idle with txReady := true }

/-- ENC sending a list from an index on. -/
def sendingAt (L : List Byte) (i : Nat) : State :=
  { start with enc := { EncState.reset with est := .send, eq := L, eidx := i } }

/-- DEC after some bytes from reset. -/
def fed (p : Config.Params) (bs : List Byte) : DecState :=
  match decIngest p DecState.reset bs with
  | .ok (d, _) => d
  | .error _ => DecState.reset

/-- The events that some bytes give from reset. -/
def eventsOf (p : Config.Params) (bs : List Byte) : List DecEvent :=
  match decIngest p DecState.reset bs with
  | .ok (_, evs) => evs
  | .error _ => []

/-- The machine with DEC fed some bytes. -/
def fedState (bs : List Byte) : State := { start with dec := fed small bs }

/-- The state an outcome gives, or `start`. -/
def after (o : Host.Outcome State Fault Refusal) : State :=
  match o with
  | .next t => t
  | .fault _ => start
  | .refused _ => start

/-- Whether an outcome is a next state. -/
def answers (o : Host.Outcome State Fault Refusal) : Bool :=
  match o with
  | .next _ => true
  | .fault _ => false
  | .refused _ => false

def t0 : StrArg := ⟨2, [0x74, 0x30]⟩
def b0 : StrArg := ⟨2, [0x62, 0x30]⟩
def hello : StrArg := ⟨5, [0x48, 0x65, 0x6C, 0x6C, 0x6F]⟩
/-- `#1dde47` -/
def hexOk : List Byte := [0x23, 0x31, 0x64, 0x64, 0x65, 0x34, 0x37]

/-! ## WellFormed refuses -/

theorem test_wf_comp_length_field_too_wide : (Instr.click ⟨8, []⟩).wf small = false := by decide
theorem test_wf_comp_array_too_long : (Instr.click ⟨2, [1, 2, 3]⟩).wf small = false := by decide
theorem test_wf_comp_array_too_short : (Instr.vis ⟨2, [1]⟩ true).wf small = false := by decide
theorem test_wf_comp_oversized_length_accepted : (Instr.click ⟨3, []⟩).wf small = true := by decide
theorem test_wf_text_array_too_long : (Instr.raw ⟨5, [1, 2, 3, 4, 5, 6]⟩).wf small = false := by decide
theorem test_wf_text_array_too_short : (Instr.setTxt t0 ⟨5, [1]⟩).wf small = false := by decide
theorem test_wf_setTxt_comp : (Instr.setTxt ⟨2, [1]⟩ hello).wf small = false := by decide
theorem test_wf_setBco_comp : (Instr.setBco ⟨2, [1]⟩ (.named 0)).wf small = false := by decide
theorem test_wf_setBco_hex : (Instr.setBco b0 (.hex 7 [1])).wf small = false := by decide
theorem test_wf_cir_hex_short : (Instr.cir 1 1 1 (.hex 7 [1])).wf small = false := by decide
theorem test_wf_cirs_hex_long : (Instr.cirs 1 1 1 (.hex 9 [1, 2, 3, 4, 5, 6, 7, 8, 9])).wf small = false := by decide
theorem test_wf_hex565_short : (Instr.hex565 8 [1]).wf small = false := by decide
theorem test_wf_hex565_long : (Instr.hex565 9 [1, 2, 3, 4, 5, 6, 7, 8, 9]).wf small = false := by decide
theorem test_wf_hex565_oversized_length_accepted : (Instr.hex565 9 []).wf small = true := by decide
theorem test_wf_touch_ends_in_term : (Instr.touch [0, 0xFF]).wf small = false := by decide
theorem test_wf_touch_contains_term : (Instr.touch [0xFF, 0xFF, 0xFF, 1]).wf small = false := by decide
theorem test_wf_touch_two_term_bytes_accepted : (Instr.touch [0xFF, 0xFF, 1]).wf small = true := by decide
theorem test_wf_page_ends_in_term : (Instr.pageChanged [0xFF]).wf small = false := by decide
theorem test_wf_other_ends_in_term : (Instr.otherFrame [1, 0xFF]).wf small = false := by decide
theorem test_wf_other_touch_tag : (Instr.otherFrame [0x65]).wf small = false := by decide
theorem test_wf_other_page_tag : (Instr.otherFrame [0x66, 1]).wf small = false := by decide

/-! ## Decoding: words written out from R47, R49, R57, R58, R60, R26, R29 -/

/-- A descriptor with every field set, so that a field read wrongly shows. -/
def busy : Descriptor :=
  { op := 0, n := 0x0101, x := 0x0202, y := 0x0303, r := 0x0404, vis := true, ckind := 0, cname := 5,
    cpacked := 0x0505, cr := 6, cg := 7, cb := 8, chexLen := 7, chex := hexOk, compLen := 1, comp := [0x61],
    textLen := 2, text := [0x62, 0x63] }

theorem test_decode_sendme : decode (.descriptor { busy with op := 0b0000 }) = .ok .sendme := by decide
theorem test_decode_page : decode (.descriptor { busy with op := 0b0001 }) = .ok (.page 0x0101) := by decide
theorem test_decode_setTxt : decode (.descriptor { busy with op := 0b0010 }) =
    .ok (.setTxt ⟨1, [0x61]⟩ ⟨2, [0x62, 0x63]⟩) := by decide
theorem test_decode_vis : decode (.descriptor { busy with op := 0b0011 }) = .ok (.vis ⟨1, [0x61]⟩ true) := by decide
theorem test_decode_cir_named : decode (.descriptor { busy with op := 0b0100 }) =
    .ok (.cir 0x0202 0x0303 0x0404 (.named 5)) := by decide
theorem test_decode_cir_packed : decode (.descriptor { busy with op := 0b0100, ckind := 0b01 }) =
    .ok (.cir 0x0202 0x0303 0x0404 (.packed 0x0505)) := by decide
theorem test_decode_cirs_rgb : decode (.descriptor { busy with op := 0b0101, ckind := 0b10 }) =
    .ok (.cirs 0x0202 0x0303 0x0404 (.rgb 6 7 8)) := by decide
theorem test_decode_setBco_hex : decode (.descriptor { busy with op := 0b0110, ckind := 0b11 }) =
    .ok (.setBco ⟨1, [0x61]⟩ (.hex 7 hexOk)) := by decide
theorem test_decode_click : decode (.descriptor { busy with op := 0b0111 }) = .ok (.click ⟨1, [0x61]⟩) := by decide
theorem test_decode_raw : decode (.descriptor { busy with op := 0b1000 }) = .ok (.raw ⟨2, [0x62, 0x63]⟩) := by decide
theorem test_decode_reserved :
    [0b1001, 0b1010, 0b1011, 0b1100, 0b1101, 0b1110, 0b1111].map (fun op => decodeDescriptor { busy with op := op }) =
      [.reserved9, .reservedA, .reservedB, .reservedC, .reservedD, .reservedE, .reservedF] := by decide
theorem test_decode_ingest : decode (.rx [0xFF]) = .ok (.ingest 0xFF) := by decide
theorem test_decode_term : decode (.rx [0xFF, 0xFF, 0xFF]) = .ok .term := by decide
/-- NIS §8 (30_encoding.md R49). -/
theorem test_decode_touch : decode (.rx [0x65, 0x00, 0x05, 0x01, 0xFF, 0xFF, 0xFF]) =
    .ok (.touch [0x00, 0x05, 0x01]) := by decide
theorem test_decode_pageChanged : decode (.rx [0x66, 0x02, 0xFF, 0xFF, 0xFF]) = .ok (.pageChanged [0x02]) := by decide
theorem test_decode_otherFrame : decode (.rx [0x10, 0xFF, 0x20, 0xFF, 0xFF, 0xFF]) =
    .ok (.otherFrame [0x10, 0xFF, 0x20]) := by decide
theorem test_decode_rgb565 : decode (.ccRgb 1 2 3) = .ok (.rgb565 1 2 3) := by decide
theorem test_decode_hex565 : decode (.ccHex 7 hexOk) = .ok (.hex565 7 hexOk) := by decide
theorem test_decode_no_byte : decode (.rx []) = .error .noByte := by decide
theorem test_decode_several : decode (.rx [0x01, 0xFF, 0xFF, 0xFF, 0x02]) = .error .severalOperations := by decide

/-- The words of spec/opcode_table.json (log 7). -/
theorem test_table_words :
    decodeTableWord 8 0x0 = some .sendme ∧ decodeTableWord 8 0x1 = some (.page 0) ∧
    decodeTableWord 8 0x8 = some (.raw ⟨0, []⟩) ∧ decodeTableWord 8 0xF = some .reservedF ∧
    decodeTableWord 24 0xFFFFFF = some .term ∧ decodeTableWord 8 0x65 = some (.touch [0, 0, 0]) ∧
    decodeTableWord 8 0x66 = some (.pageChanged [0]) ∧ decodeTableWord 0 0 = some (.ingest 0) ∧
    decodeTableWord 24 0x030201 = some (.rgb565 1 2 3) ∧ decodeTableWord 16 0 = some (.hex565 0 []) := by decide

/-- The first step after reset runs the word placed for it. -/
theorem test_fetch_word_runs :
    (after (step (State.reset.withFetchWord 8 0x0))).enc.eq =
      [0x73, 0x65, 0x6E, 0x64, 0x6D, 0x65, 0xFF, 0xFF, 0xFF] ∧
    (after (step (State.reset.withFetchWord 8 0x66))).dec.curPageV = true := by decide

/-! ## The colour codec (95_test_vectors.md section 2) -/

/-- V-CC-01, V-CC-04, V-CC-05, V-CC-08. -/
theorem test_rgb565 : ccRgb565 0x1D 0xDE 0x47 = 0x1EE8 ∧ ccRgb565 7 3 7 = 0 ∧ ccRgb565 8 4 8 = 0x0821 ∧
    ccRgb565 0 0 0xFF = 0x001F := by decide
/-- V-CC-06, on the port. -/
theorem test_rgb565_port : (after (exec (.rgb565 0xFF 0 0) start)).ccRgb565Out = 0xF800 := by decide
/-- V-CC-12, V-CC-13, V-CC-18, V-CC-19, V-CC-21, V-CC-22, V-CC-23. -/
theorem test_hex565 : ccHex565 hexOk = .ok 0x1EE8 ∧
    ccHex565 [0x23, 0x31, 0x44, 0x44, 0x45, 0x34, 0x37] = .ok 0x1EE8 ∧
    ccHex565 [0x31, 0x64, 0x64, 0x65, 0x34, 0x37] = .error .invalidColorFormat ∧
    ccHex565 [0x23, 0x31, 0x64, 0x64, 0x65, 0x34] = .error .invalidColorFormat ∧
    ccHex565 [0x23, 0x31, 0x64, 0x67, 0x65, 0x34, 0x37] = .error .invalidColorFormat ∧
    ccHex565 [] = .error .invalidColorFormat ∧
    ccHex565 [0x23, 0x2B, 0x31, 0x64, 0x64, 0x65, 0x34] = .error .invalidColorFormat := by decide
/-- V-CC-24, V-CC-25, and V-CC-20 (eight bytes, the longest the port holds): the clauses of
HexOperationShowsColourOrError at `cc_hex_len` = 9, 7 and 8. -/
theorem test_hex565_port :
    (after (exec (.hex565 9 []) start)).ccHexErr = true ∧ (after (exec (.hex565 9 []) start)).ccHex565Out = 0 ∧
    (after (exec (.hex565 7 hexOk) start)).ccHexErr = false ∧
    (after (exec (.hex565 7 hexOk) start)).ccHex565Out = 0x1EE8 ∧
    (after (exec (.hex565 8 (hexOk ++ [0x37])) start)).ccHexErr = true := by decide

/-! ## The command encoder (95_test_vectors.md section 3): these also witness the clauses of the statements
about commands, with lengths at their bounds `COMP_MAX` = 2 and `TEXT_MAX` = 5 and one past them -/

/-- V-ENC-01. -/
theorem test_sendme : start.enc.est = .idle ∧
    (after (exec .sendme start)).enc.eq = [0x73, 0x65, 0x6E, 0x64, 0x6D, 0x65, 0xFF, 0xFF, 0xFF] := by decide
/-- V-ENC-02, V-ENC-05. -/
theorem test_page : (after (exec (.page 0) start)).enc.eq = [0x70, 0x61, 0x67, 0x65, 0x20, 0x30, 0xFF, 0xFF, 0xFF] ∧
    (after (exec (.page 65535) start)).enc.eq =
      [0x70, 0x61, 0x67, 0x65, 0x20, 0x36, 0x35, 0x35, 0x33, 0x35, 0xFF, 0xFF, 0xFF] := by decide
/-- V-ENC-06, V-ENC-08. -/
theorem test_setTxt : (after (exec (.setTxt t0 hello) start)).enc.eq =
      [0x74, 0x30, 0x2E, 0x74, 0x78, 0x74, 0x3D, 0x22, 0x48, 0x65, 0x6C, 0x6C, 0x6F, 0x22, 0xFF, 0xFF, 0xFF] ∧
    (after (exec (.setTxt ⟨0, []⟩ ⟨1, [0x78]⟩) start)).enc.eq =
      [0x2E, 0x74, 0x78, 0x74, 0x3D, 0x22, 0x78, 0x22, 0xFF, 0xFF, 0xFF] := by decide
theorem test_setTxt_oversized : (after (exec (.setTxt ⟨3, []⟩ hello) start)).enc.errCode = 2 ∧
    (after (exec (.setTxt t0 ⟨6, []⟩) start)).enc.errV = true := by decide
/-- V-ENC-10, V-ENC-11. -/
theorem test_vis : (after (exec (.vis b0 true) start)).enc.eq =
      [0x76, 0x69, 0x73, 0x20, 0x62, 0x30, 0x2C, 0x31, 0xFF, 0xFF, 0xFF] ∧
    (after (exec (.vis b0 false) start)).enc.eq =
      [0x76, 0x69, 0x73, 0x20, 0x62, 0x30, 0x2C, 0x30, 0xFF, 0xFF, 0xFF] := by decide
theorem test_vis_oversized : (after (exec (.vis ⟨3, []⟩ true) start)).enc.errCode = 2 := by decide
/-- V-ENC-12, V-ENC-15. -/
theorem test_cir : (after (exec (.cir 100 50 20 (.named 5)) start)).enc.eq =
      [0x63, 0x69, 0x72, 0x20, 0x31, 0x30, 0x30, 0x2C, 0x35, 0x30, 0x2C, 0x32, 0x30, 0x2C, 0x52, 0x45, 0x44,
        0xFF, 0xFF, 0xFF] ∧
    (after (exec (.cir 1 2 3 (.hex 7 hexOk)) start)).enc.eq =
      [0x63, 0x69, 0x72, 0x20, 0x31, 0x2C, 0x32, 0x2C, 0x33, 0x2C, 0x37, 0x39, 0x31, 0x32, 0xFF, 0xFF, 0xFF] := by
  decide
/-- V-ENC-27, V-ENC-28. -/
theorem test_cir_bad_colour : (after (exec (.cir 1 2 3 (.hex 6 hexOk)) start)).enc.errCode = 1 ∧
    (after (exec (.cirs 1 2 3 (.hex 9 hexOk)) start)).enc = { EncState.reset with errCode := 1, errV := true } := by
  decide
/-- V-ENC-17, 32 bytes; V-ENC-18. -/
theorem test_cirs : (after (exec (.cirs 65535 65535 65535 (.named 4)) start)).enc.eq.length = 32 ∧
    (after (exec (.cirs 5 6 7 (.packed 0xFFFF)) start)).enc.eq =
      [0x63, 0x69, 0x72, 0x73, 0x20, 0x35, 0x2C, 0x36, 0x2C, 0x37, 0x2C, 0x36, 0x35, 0x35, 0x33, 0x35,
        0xFF, 0xFF, 0xFF] := by decide
/-- V-ENC-20. -/
theorem test_setBco : (after (exec (.setBco b0 (.hex 7 hexOk)) start)).enc.eq =
    [0x62, 0x30, 0x2E, 0x62, 0x63, 0x6F, 0x3D, 0x37, 0x39, 0x31, 0x32, 0xFF, 0xFF, 0xFF, 0x72, 0x65, 0x66, 0x20,
      0x62, 0x30, 0xFF, 0xFF, 0xFF] := by decide
/-- V-ENC-29, V-ENC-32. -/
theorem test_setBco_errors : (after (exec (.setBco b0 (.hex 6 hexOk)) start)).enc.errCode = 1 ∧
    (after (exec (.setBco ⟨3, []⟩ (.hex 6 hexOk)) start)).enc.errCode = 2 := by decide
/-- V-ENC-22. -/
theorem test_click : (after (exec (.click ⟨2, [0x62, 0x31]⟩) start)).enc.eq =
    [0x63, 0x6C, 0x69, 0x63, 0x6B, 0x20, 0x62, 0x31, 0x2C, 0x31, 0xFF, 0xFF, 0xFF, 0x63, 0x6C, 0x69, 0x63, 0x6B, 0x20,
      0x62, 0x31, 0x2C, 0x30, 0xFF, 0xFF, 0xFF] := by decide
theorem test_click_oversized : (after (exec (.click ⟨3, []⟩) start)).enc.errCode = 2 := by decide
/-- V-ENC-23, V-ENC-25. -/
theorem test_raw : (after (exec (.raw ⟨0, []⟩) start)).enc.eq = [0xFF, 0xFF, 0xFF] ∧
    (after (exec (.raw ⟨5, [0x41, 0xFF, 0xFF, 0xFF, 0x42]⟩) start)).enc.eq =
      [0x41, 0xFF, 0xFF, 0xFF, 0x42, 0xFF, 0xFF, 0xFF] := by decide
/-- V-ENC-33, one past the bound. -/
theorem test_raw_oversized : (after (exec (.raw ⟨6, []⟩) start)).enc.errCode = 2 := by decide
/-- V-ENC-30. -/
theorem test_reserved9 : (after (exec .reserved9 start)).enc = { EncState.reset with errCode := 2, errV := true } := by
  decide
/-- V-ENC-31: the reserved code is checked first. -/
theorem test_reservedF : encEncode small { busy with op := 0xF, ckind := 3, chexLen := 2, chex := [0x7A, 0x7A] } =
    .error .illegalOp := by decide
/-- V-ENC-34, V-ENC-35: fields that an operation does not read. -/
theorem test_unread_fields :
    encEncode small { busy with op := 1, n := 3, compLen := 7 } =
      .ok [0x70, 0x61, 0x67, 0x65, 0x20, 0x33, 0xFF, 0xFF, 0xFF] ∧
    encEncode small { busy with op := 3, compLen := 2, comp := [0x62, 0x30], ckind := 3, chexLen := 0 } =
      .ok [0x76, 0x69, 0x73, 0x20, 0x62, 0x30, 0x2C, 0x31, 0xFF, 0xFF, 0xFF] := by decide

/-- P4, cycles 1, 2, 12 and 14: accept, send, send the last byte, and the error cleared at the next acceptance. -/
theorem test_p4_enc :
    start.cmdReady = true ∧ (after (step (start.present (encode (.page 3))))).enc.est = .send ∧
    (after (step { sendingAt [0x70, 0x61] 0 with pins := ready })).enc.eidx = 1 ∧
    (after (step { sendingAt [0x70, 0x61] 1 with pins := ready })).enc.est = .idle ∧
    (after (step ({ start with enc := { EncState.reset with errCode := 1, errV := true } }.present
      (encode (.raw ⟨0, []⟩))))).enc =
        { est := .send, eq := [0xFF, 0xFF, 0xFF], eidx := 0, errCode := 0, errV := false } := by decide

/-! ## The frame decoder (95_test_vectors.md section 4) -/

/-- V-DEC-01. -/
theorem test_dec_touch : eventsOf small [0x65, 0x00, 0x05, 0x01, 0xFF, 0xFF, 0xFF] =
      [.receivedData [0x65, 0x00, 0x05, 0x01], .touch (some 0) (some 5) (some 1)] ∧
    (fed small [0x65, 0x00, 0x05, 0x01, 0xFF, 0xFF, 0xFF]).tpFv = 0b111 := by decide
/-- V-DEC-08. -/
theorem test_dec_short_touch : eventsOf small [0x65, 0x07, 0x09, 0xFF, 0xFF, 0xFF] =
      [.receivedData [0x65, 0x07, 0x09], .touch (some 7) (some 9) none] ∧
    (fed small [0x65, 0x07, 0x09, 0xFF, 0xFF, 0xFF]).tpFv = 0b011 := by decide
/-- V-DEC-02, V-DEC-10. -/
theorem test_dec_page : (fed small [0x66, 0x02, 0xFF, 0xFF, 0xFF]).curPage = 2 ∧
    (fed small [0x66, 0x02, 0xFF, 0xFF, 0xFF]).pgFv = true ∧
    eventsOf small [0x66, 0xFF, 0xFF, 0xFF] = [.receivedData [0x66], .pageChanged none] ∧
    (fed small [0x66, 0xFF, 0xFF, 0xFF]).curPageV = false := by decide
/-- V-DEC-29: an absent page and a touch keep the current page. -/
theorem test_dec_page_kept :
    (fed small [0x66, 0x05, 0xFF, 0xFF, 0xFF, 0x66, 0xFF, 0xFF, 0xFF, 0x65, 0x01, 0x02, 0x03, 0xFF, 0xFF, 0xFF]).curPage
      = 5 := by decide
/-- V-DEC-03, V-DEC-15. -/
theorem test_dec_term : eventsOf small [0xFF, 0xFF, 0xFF] = [.receivedData []] ∧
    eventsOf small [0xFF, 0xFF, 0xFF, 0xFF, 0xFF, 0xFF] = [.receivedData [], .receivedData []] := by decide
/-- V-DEC-04, V-DEC-16. -/
theorem test_dec_other : eventsOf small [0x10, 0xFF, 0xFF, 0x20, 0xFF, 0xFF, 0xFF] =
      [.receivedData [0x10, 0xFF, 0xFF, 0x20]] ∧
    (fed small [0x01, 0xFF, 0xFF, 0xFF, 0xFF]).run = 1 := by decide
/-- V-DEC-19. -/
theorem test_dec_open : (fed small [0x65, 0x00, 0xFF, 0xFF]).run = 2 ∧ (fed small [0x65, 0x00, 0xFF, 0xFF]).cnt = 4 ∧
    accBytes (fed small [0x65, 0x00, 0xFF, 0xFF]) = [0x65, 0x00, 0xFF, 0xFF] := by decide
/-- V-DEC-24, V-DEC-25, V-DEC-27, at `BUF_CAP` = 7. -/
theorem test_dec_overflow :
    eventsOf small [0x01, 0x02, 0x03, 0x04, 0xFF, 0xFF, 0xFF] = [.receivedData [1, 2, 3, 4]] ∧
    eventsOf small [0x01, 0x02, 0x03, 0x04, 0x05, 0xFF, 0xFF, 0xFF, 0x66, 0x03, 0xFF, 0xFF, 0xFF] =
      [.frameDropped, .receivedData [0x66, 0x03], .pageChanged (some 3)] ∧
    eventsOf small [0x01, 0x02, 0x03, 0x04, 0x05, 0x06, 0x07, 0xFF, 0xFF, 0x08, 0xFF, 0xFF, 0xFF] = [.frameDropped] := by
  decide
/-- P4, cycles 7 and 8 of DEC: both pulses, the page, and FOB at the read port. -/
theorem test_p4_dec :
    let s := after (step ((fedState [0x66, 0x02, 0xFF, 0xFF]).present (.rx [0xFF])))
    s.pulses = { rd := true, touch := false, page := true, drop := false } ∧ s.dec.curPage = 2 ∧
    { s with pins := { s.pins with fobRaddr := 1 } }.fobRdata = 0x02 := by
  refine ⟨by decide, by decide, by rfl⟩
/-- V-DEC-28: a reset in mid-frame clears the page and emits nothing. -/
theorem test_reset_mid_frame :
    (after (step { fedState [0x66, 0x04, 0xFF, 0xFF, 0xFF, 0x65] with pins := { ready with rst := true } })).dec =
      { DecState.reset with fobGen := 2 } := by decide

/-! ## The read port of FOB -/

/-- At and past `fob_len` the port shows the free value, whatever it is (10_state.md R27). -/
theorem test_fob_port_past_length : { start with pins := { ready with fobRaddr := 0 } }.fobRdata =
    Config.freeFobByte 0 0 := rfl

/-! ## Witnesses: for every statement with hypotheses, a state and operands that meet them, clause by clause -/

theorem witness_encode_wf : (Instr.setTxt t0 hello).wf small = true ∧ (Instr.otherFrame []).wf small = true ∧
    (Instr.touch [0, 5, 1]).wf small = true ∧ (Instr.cir 1 2 3 (.hex 7 hexOk)).wf small = true := by decide

/-- Two descriptors that differ in fields that PAGE, VIS, CIR and RAW do not read, and in a byte past a string's
length: they meet every hypothesis of UnreadDescriptorFieldsAreIgnored at once. -/
theorem witness_unread :
    let d := { busy with op := 1 }
    let e := { busy with op := 1, x := 9, compLen := 0, ckind := 1 }
    let d' := { busy with op := 3 }
    let e' := { busy with op := 3, n := 9, comp := [0x61, 0x99], textLen := 0 }
    let d'' := { busy with op := 4 }
    let e'' := { busy with op := 4, cpacked := 9, chexLen := 0, vis := false }
    d ≠ e ∧ d.op = e.op ∧ d.n = e.n ∧
    d' ≠ e' ∧ d'.op = e'.op ∧ d'.compLen = e'.compLen ∧ d'.comp.take d'.compLen = e'.comp.take e'.compLen ∧
    d'.vis = e'.vis ∧
    d'' ≠ e'' ∧ d''.op = e''.op ∧ d''.x = e''.x ∧ d''.y = e''.y ∧ d''.r = e''.r ∧ d''.ckind = e''.ckind ∧
    d''.ckind = 0 ∧ d''.cname = e''.cname := by decide

/-- The same for SETTXT and RAW (bytes past the text's length) and SETBCO with a hex colour (bytes past its length). -/
theorem witness_unread_strings :
    let d := { busy with op := 2 }
    let e := { busy with op := 2, n := 9, text := [0x62, 0x63, 0x99] }
    let d' := { busy with op := 6, ckind := 3, chexLen := 1 }
    let e' := { busy with op := 6, ckind := 3, chexLen := 1, chex := [0x23], cname := 0 }
    d ≠ e ∧ d.compLen = e.compLen ∧ d.comp.take d.compLen = e.comp.take e.compLen ∧ d.textLen = e.textLen ∧
    d.text.take d.textLen = e.text.take e.textLen ∧
    d' ≠ e' ∧ d'.compLen = e'.compLen ∧ d'.comp.take d'.compLen = e'.comp.take e'.compLen ∧ d'.ckind = e'.ckind ∧
    d'.chexLen = e'.chexLen ∧ d'.chex.take d'.chexLen.toNat = e'.chex.take e'.chexLen.toNat := by decide

/-- The clauses of ColourOperandSpelling at lengths 9, 8 and 7. -/
theorem witness_spelling :
    8 < (9 : BitVec 4).toNat ∧ (8 : BitVec 4).toNat ≤ 8 ∧
    ccHex565 ((hexOk ++ [0x37]).take (8 : BitVec 4).toNat) = .error .invalidColorFormat ∧
    ccHex565 (hexOk.take (7 : BitVec 4).toNat) = .ok 0x1EE8 := by decide

/-- The clauses of the command statements: lengths at the bound and one past it, a spelled and a failing colour. -/
theorem witness_commands : start.enc.est = .idle ∧ t0.len = start.params.compMax ∧
    hello.len = start.params.textMax ∧ start.params.compMax < (⟨3, []⟩ : StrArg).len ∧
    start.params.textMax < (⟨6, []⟩ : StrArg).len ∧ spellColour (.named 5) = .ok [0x52, 0x45, 0x44] ∧
    spellColour (.hex 9 []) = .error .invalidColorFormat := by decide

theorem witness_sending : (sendingAt [0x41, 0xFF, 0xFF, 0xFF] 0).enc.est = .send ∧
    after (exec (decodeDescriptor busy) (sendingAt [0x41, 0xFF, 0xFF, 0xFF] 0)) = sendingAt [0x41, 0xFF, 0xFF, 0xFF] 0 := by
  decide

theorem witness_encoded_list : encEncode small (Descriptor.ofOp 0) =
    .ok [0x73, 0x65, 0x6E, 0x64, 0x6D, 0x65, 0xFF, 0xFF, 0xFF] := by decide

/-- EncoderSendsOneByteAtATime: stalled, in the middle, at the last byte. -/
theorem witness_sends :
    (sendingAt [0x41, 0x42] 0).pins.rst = false ∧ (sendingAt [0x41, 0x42] 0).enc.est = .send ∧
    (after (step (sendingAt [0x41, 0x42] 0))).enc = (sendingAt [0x41, 0x42] 0).enc ∧
    (after (step { sendingAt [0x41, 0x42] 0 with pins := ready })).enc = (sendingAt [0x41, 0x42] 1).enc ∧
    (after (step { sendingAt [0x41, 0x42] 1 with pins := ready })).enc = EncState.reset := by decide

/-- A state whose queued command meets the hypotheses of QueuedCommandLeavesWhole. -/
def draining : State := { sendingAt [0xFF, 0xFF, 0xFF] 0 with pins := ready, sched := [ready, ready] }

theorem witness_leaves_whole : draining.enc.est = .send ∧ draining.enc.eidx = 0 ∧
    draining.enc.eq = [0xFF, 0xFF, 0xFF] ∧ 3 ≤ draining.pinsAhead.length ∧
    ∀ q ∈ draining.pinsAhead.take 3, q.rst = false ∧ q.txReady = true := by decide

/-- The invariant of a frame in progress, from points that can be evaluated. -/
theorem frameInv_of {d : DecState} (h : (decide (d.st = .idle) = decide (d.cnt = 0)) ∧
      (decide (d.st = .idle) = true → d.run = 0 ∧ d.drop = false) ∧ d.run.toNat ≤ 2 ∧
      (d.drop = false → d.run.toNat = trailingTerm (accBytes d)) ∧ Config.within small.bufCap d.cnt = true ∧
      (d.drop = true → small.bufCap = some d.cnt)) : FrameInv small d := by
  obtain ⟨h1, h2, h3, h4, h5, h6⟩ := h
  exact ⟨by simpa using h1, by simpa using h2, h3, h4, h5, h6⟩

/-- A state in mid-frame and mid-command. -/
def midway : State := { draining with dec := fed small [0x65, 0x00, 0xFF, 0xFF] }

theorem midway_inv : midway.Inv :=
  ⟨by decide, ⟨frameInv_of (by decide), by decide, by decide, by decide, by decide, by decide, by decide, by decide,
    by decide, by decide, by decide, by decide⟩, ⟨by decide, by decide, fun _ => ⟨[], rfl⟩, by decide, by decide, by decide⟩⟩

theorem witness_step_keeps : midway.Inv ∧ ∃ t, step midway = .next t := ⟨midway_inv, _, rfl⟩

/-- A run of one step from a state with the invariant, without reset. -/
theorem witness_wire : midway.Inv ∧ (∀ q ∈ midway.pinsAhead.take 1, q.rst = false) ∧
    ∃ t evs, Runs 1 midway t [] [0xFF] evs :=
  ⟨midway_inv, by decide, _, _, Runs.step (t := after (step midway)) (by rfl) (Runs.done _)⟩

/-- EdgeTakesOfferedCommand: an accepted command, both errors, and no command. -/
theorem witness_error_pulse :
    (start.present (.descriptor (Descriptor.ofOp 0))).cmdReady = true ∧
    (start.present (.descriptor (Descriptor.ofOp 0))).pins.cmdValid = true ∧
    (after (step (start.present (.descriptor (Descriptor.ofOp 0))))).enc.errV = false ∧
    (after (step (start.present (.descriptor (Descriptor.ofOp 9))))).enc.errCode = 2 ∧
    (after (step (start.present (.descriptor { Descriptor.ofOp 4 with ckind := 3 })))).enc.errCode = 1 ∧
    answers (step start) = true ∧ start.pins.cmdValid = false := by decide

/-- IngestStoresOnlyItsBytes: a byte stored at index 0, the last byte with room (index 6), a byte discarded, and a
completion. -/
theorem witness_stores :
    Memory.wf (fed small [1, 2, 3, 4, 5, 6]).acc = true ∧ Memory.wf (fed small [1, 2, 3, 4, 5, 6]).fob = true ∧
    answers (exec (.ingest 7) (fedState [1, 2, 3, 4, 5, 6])) = true ∧
    memRead (after (exec (.ingest 9) start)).dec.acc 0 = 9 ∧
    memRead (after (exec (.ingest 7) (fedState [1, 2, 3, 4, 5, 6]))).dec.acc 6 = 7 ∧
    (after (exec (.ingest 8) (fedState [1, 2, 3, 4, 5, 6, 7]))).dec.ovfSeen = true ∧
    (after (exec (.ingest 0xFF) (fedState [1, 2, 0xFF, 0xFF]))).pulses.rd = true := by decide

/-- TerminatorEndsTheFrame, its first clause: none, one and two 0xFF bytes already counted, up to the longest
frame. -/
theorem witness_terminator : start.params.legal = true ∧ FrameInv small start.dec ∧
    FrameInv small (fed small [1, 2, 3, 4]) ∧ FrameInv small (fed small [1, 2, 3, 4, 0xFF]) ∧
    FrameInv small (fed small [1, 2, 3, 4, 0xFF, 0xFF]) ∧
    (fed small [1, 2, 3, 4, 0xFF, 0xFF]).drop = false ∧ Config.within small.frameMax 4 = true ∧
    (fed small [1, 2, 3, 4, 0xFF, 0xFF]).cnt - (fed small [1, 2, 3, 4, 0xFF, 0xFF]).run.toNat = 4 ∧
    Memory.wf (fed small [1, 2, 3, 4, 0xFF, 0xFF]).acc = true ∧
    Memory.wf (fed small [1, 2, 3, 4, 0xFF, 0xFF]).fob = true :=
  ⟨by decide, frameInv_of (by decide), frameInv_of (by decide), frameInv_of (by decide), frameInv_of (by decide),
    by decide, by decide, by decide, by decide, by decide⟩

/-- TerminatorEndsTheFrame, its second clause: a frame one byte too long whose terminator does not fit, and a frame
being dropped with none, one and two 0xFF bytes counted. -/
theorem witness_terminator_drops :
    FrameInv small (fed small [1, 2, 3, 4, 5]) ∧ Config.within small.frameMax (fed small [1, 2, 3, 4, 5]).cnt = false ∧
    Memory.wf (fed small [1, 2, 3, 4, 5]).acc = true ∧
    (after (exec .term (fedState [1, 2, 3, 4, 5]))).pulses.drop = true ∧
    FrameInv small (fed small [1, 2, 3, 4, 5, 6, 7, 8]) ∧ (fed small [1, 2, 3, 4, 5, 6, 7, 8]).drop = true ∧
    FrameInv small (fed small [1, 2, 3, 4, 5, 6, 7, 0xFF]) ∧ (fed small [1, 2, 3, 4, 5, 6, 7, 0xFF]).run = 1 ∧
    FrameInv small (fed small [1, 2, 3, 4, 5, 6, 7, 0xFF, 0xFF]) ∧
    (fed small [1, 2, 3, 4, 5, 6, 7, 0xFF, 0xFF]).run = 2 ∧
    (after (exec .term (fedState [1, 2, 3, 4, 5, 6, 7, 0xFF, 0xFF]))).dec.cnt = 2 :=
  ⟨frameInv_of (by decide), by decide, by decide, by decide, frameInv_of (by decide), by decide,
    frameInv_of (by decide), by decide, frameInv_of (by decide), by decide, by decide⟩

/-- Frames that arrive whole at `FRAME_MAX` = 4: a touch frame, a page frame, another frame, the empty frame; and a
frame of 5 that does not fit. -/
theorem witness_frames :
    start.params.legal = true ∧ start.dec.st = .idle ∧ Memory.wf start.dec.acc = true ∧ Memory.wf start.dec.fob = true ∧
    framable [0x65, 0, 5, 1] = true ∧ Config.within start.params.frameMax 4 = true ∧
    framable [0x66, 2, 3, 4] = true ∧ framable [0x66] = true ∧
    framable [0x10, 0xFF, 0xFF, 0x20] = true ∧ framable [] = true ∧ Config.within start.params.frameMax 0 = true ∧
    framable [1, 2, 3, 4, 5] = true ∧ Config.within start.params.frameMax 5 = false := by decide

theorem witness_overlong :
    (after (exec (.otherFrame [1, 2, 3, 4, 5]) start)).pulses = { rd := false, touch := false, page := false, drop := true } := by
  decide

/-- A stream of a touch, an overlong, an empty and a page frame, at `BUF_CAP` = 7. -/
theorem witness_stream : small.legal = true ∧
    (∀ F ∈ [[0x65, 0, 5, 1], [1, 2, 3, 4, 5], [], [0x66, 2]], framable F = true) ∧
    eventsOf small ([[0x65, 0, 5, 1], [1, 2, 3, 4, 5], [], [0x66, 2]].flatMap (· ++ [0xFF, 0xFF, 0xFF])) =
      [.receivedData [0x65, 0, 5, 1], .touch (some 0) (some 5) (some 1), .frameDropped, .receivedData [],
        .receivedData [0x66, 2], .pageChanged (some 2)] := by decide

/-- A byte that completes a frame, and one that completes a dropped one: the hypotheses of
CompletionsAreThreeBytesApart, AtMostOneTypedEventPerByte and DroppedFrameKeepsEventRegisters. -/
theorem witness_completion :
    (∃ e, decStep small (fed small [0x66, 1, 0xFF, 0xFF]) 0xFF = .ok (e, [.receivedData [0x66, 1], .pageChanged (some 1)])) ∧
    (∃ e, decStep small (fed small [1, 2, 3, 4, 5, 0xFF, 0xFF]) 0xFF = .ok (e, [.frameDropped])) :=
  ⟨⟨_, rfl⟩, ⟨_, rfl⟩⟩

/-- EventRegistersHoldLatestEvent and CurrentPageFollowsPageEvents: a stream with an event of each kind, and one
with none. -/
theorem witness_latest :
    (∃ e, decIngest small DecState.reset [0x65, 1, 0xFF, 0xFF, 0xFF, 0x66, 2, 0xFF, 0xFF, 0xFF] =
      .ok (e, [.receivedData [0x65, 1], .touch (some 1) none none, .receivedData [0x66, 2], .pageChanged (some 2)])) ∧
    (∃ e, decIngest small DecState.reset [1, 2] = .ok (e, [])) ∧ Memory.wf DecState.reset.fob = true :=
  ⟨⟨_, rfl⟩, ⟨_, rfl⟩, rfl⟩

theorem witness_reset_edge : { draining with pins := { ready with rst := true } }.pins.rst = true := rfl

theorem witness_presented : decode (.rx [0x65, 0, 5, 1, 0xFF, 0xFF, 0xFF]) = .ok (.touch [0, 5, 1]) ∧
    answers (step (start.present (.rx [0x65, 0, 5, 1, 0xFF, 0xFF, 0xFF]))) = true := by decide

/-- PulsesShowTheEdgesEvents and EdgeTakesOfferedBytes: one byte, and no byte, outside reset. -/
theorem witness_pulses : (start.present (.rx [0xFF])).pins.rx.length ≤ 1 ∧ (start.present (.rx [0xFF])).pins.rst = false ∧
    answers (step (start.present (.rx [0xFF]))) = true ∧ start.pins.rx.length ≤ 1 ∧ answers (step start) = true := by decide

/-- EdgeTakesOfferedBytes: a chunk whose last byte completes a frame. -/
theorem witness_edge_takes_chunk :
    let s := { start with pins := { ready with rx := [0x66, 0x02, 0xFF, 0xFF] ++ [0xFF], cmdValid := true } }
    s.pins.rst = false ∧ answers (step s) = true ∧ (after (step s)).pulses.page = true ∧
    s.emittedEvents = [.receivedData [0x66, 0x02], .pageChanged (some 2)] := by decide

theorem witness_sticky : (fedState [1, 2, 3, 4, 5, 0xFF, 0xFF, 0xFF]).dec.ovfSeen = true ∧
    (fedState [1, 2, 3, 4, 5, 0xFF, 0xFF, 0xFF]).pins.rst = false ∧
    answers (step (fedState [1, 2, 3, 4, 5, 0xFF, 0xFF, 0xFF])) = true := by decide

/-- Two states that agree on DEC and its pins and differ on ENC, and two the other way round. -/
theorem witness_independent :
    (fedState [1, 2]).dec = { draining with dec := fed small [1, 2] }.dec ∧
    (fedState [1, 2]).pins.rx = draining.pins.rx ∧ (fedState [1, 2]).enc ≠ draining.enc ∧
    start.enc = (fedState [1, 2]).enc ∧ start.dec ≠ (fedState [1, 2]).dec ∧ start.pins = (fedState [1, 2]).pins ∧
    start.params = draining.params ∧ start.pins.rst = draining.pins.rst ∧ answers (step start) = true ∧
    answers (step (fedState [1, 2])) = true ∧
    answers (step { draining with dec := fed small [1, 2] }) = true := by decide

/-- HandshakeOutputs, its clause on the read port: the first and the last byte of a frame in FOB (V-DEC-02). -/
theorem witness_read_port :
    let s := fedState [0x66, 0x02, 0xFF, 0xFF, 0xFF]
    0 < s.dec.fobLen ∧ 1 < s.dec.fobLen ∧ s.dec.fobLen = 2 ∧
    memRead s.dec.fob 0 = 0x66 ∧ memRead s.dec.fob 1 = 0x02 := by decide

/-- HandshakeOutputs at a byte offered and at none. -/
theorem witness_outputs : draining.txValid = true ∧ draining.txData = 0xFF ∧ start.txValid = false ∧ start.txData = 0 := by
  decide

end Sys2Proof.Tests
end

section
/-! Every instruction and every step answers `next`: the units' shared operations never fail, each instruction is
one of them, and a step is a sequence of them. -/

namespace Sys2Proof.Machine

/-- Offering a command answers, whatever its bytes or its error: ENC's errors are no faults (60_exceptions.md R116). -/
theorem acceptCommand_answers (s : State) (r : Except EncError (List Byte)) : Answers (s.acceptCommand r) := by
  obtain ⟨_, h⟩ | ⟨_, L, _, h⟩ | ⟨_, e, _, h⟩ := acceptCommand_cases s r
  · exact ⟨s, h⟩
  · exact ⟨s.sending L, h⟩
  · exact ⟨s.failing e.code, h⟩

/-- Accepting bytes answers from any state: `dec_step` looks at the room in ACC before it stores, and a frame in ACC
fits FOB (`decStep_cases`), so no invariant is needed. -/
theorem acceptBytes_answers (s : State) (bs : List Byte) : Answers (s.acceptBytes bs) := by
  obtain ⟨d, _, pulses, _, h⟩ := acceptBytes_next s bs
  exact ⟨{ s with dec := d, pulses := pulses }, h⟩

/-- What an instruction can be, by the unit whose port it stands on: a command offered to ENC, bytes accepted by
DEC, or new levels on CC's pins. -/
theorem exec_cases (i : Instr) (s : State) :
    (∃ r, exec i s = s.acceptCommand r) ∨ (∃ bs, exec i s = s.acceptBytes bs) ∨
    (∃ q : Pins, exec i s = .next { s with pins := q }) := by
  cases i with
  | sendme => exact .inl ⟨.ok encodeSendme, rfl⟩
  | page n => exact .inl ⟨.ok (encodePage n), rfl⟩
  | setTxt | vis | cir | cirs | setBco | click | raw => exact .inl ⟨_, rfl⟩
  | reserved9 | reservedA | reservedB | reservedC | reservedD | reservedE | reservedF =>
    exact .inl ⟨.error .illegalOp, rfl⟩
  | ingest b => exact .inr (.inl ⟨[b], exec_of_decodeRx rfl s⟩)
  | term | touch | pageChanged | otherFrame => exact .inr (.inl ⟨_, rfl⟩)
  | rgb565 | hex565 => exact .inr (.inr ⟨_, rfl⟩)

theorem exec_answers (i : Instr) (s : State) : Answers (exec i s) := by
  obtain ⟨r, h⟩ | ⟨bs, h⟩ | ⟨q, h⟩ := exec_cases i s
  · exact h ▸ acceptCommand_answers s r
  · exact h ▸ acceptBytes_answers s bs
  · exact ⟨_, h⟩

theorem step_answers (s : State) : Answers (step s) := by
  obtain ⟨_, h⟩ | ⟨_, _, _, _, _, _, h⟩ := step_cases s
  · exact ⟨_, h⟩
  · exact ⟨_, h⟩

/-- Settles O43: each instruction is one of three shared operations, none of which fails, and a step in or out of
reset is made of these. -/
theorem everyInstructionAnswersNext : Obligations.EveryInstructionAnswersNext :=
  ⟨exec_answers, step_answers⟩

end Sys2Proof.Machine
end

section
/-! What `dec_step` keeps of DEC's invariant: the frame in progress (10_state.md R31), the arrays (20_memory.md
R35) and the event registers (R18 to R20), each by its own rule. -/

namespace Sys2Proof.Machine

/-! ### Bounds on an index or a length -/

theorem within_zero (o : Option Nat) : Config.within o 0 = true := by
  cases o <;> simp [Config.within]

theorem below_of_lt {o : Option Nat} {n i : Nat} (h : Config.within o n = true) (hi : i < n) :
    Config.below o i = true := by
  cases o with
  | none => rfl
  | some m => simp only [Config.within, Config.below, decide_eq_true_eq] at h ⊢; omega

/-- An index at which there is no room, within the capacity, is the capacity. -/
theorem eq_of_not_below {o : Option Nat} {n : Nat} (hw : Config.within o n = true)
    (hb : Config.below o n = false) : o = some n := by
  cases o with
  | none => cases hb
  | some m =>
    simp only [Config.within, Config.below, decide_eq_true_eq, decide_eq_false_iff_not] at hw hb
    rw [show m = n by omega]

theorem not_below_self (n : Nat) : Config.below (some n) n = false := by simp [Config.below]

/-- ACC of a legal machine has room for a first byte. -/
theorem bufCap_ne_zero {p : Config.Params} (h : p.legal = true) : p.bufCap ≠ some 0 := by
  intro h0
  simp [Config.Params.legal, h0] at h

/-! ### Arrays -/

/-- An array in canonical form (log 5) that lists no index at or past a bound (20_memory.md R35). -/
def Memory.Fits (bound : Option Nat) (m : Memory) : Prop :=
  Memory.wf m = true ∧ ∀ c ∈ m, Config.below bound c.1 = true

theorem memWrite_fits {bound : Option Nat} {m : Memory} (h : Memory.Fits bound m) {a : Nat}
    (ha : Config.below bound a = true) (b : Byte) : Memory.Fits bound (memWrite m a b) := by
  refine ⟨memWrite_wf h.1 a b, fun c hc => ?_⟩
  rcases memWrite_mem hc with rfl | hm
  · exact ha
  · exact h.2 c hm

theorem memWriteList_fits {bound : Option Nat} {m : Memory} (h : Memory.Fits bound m) {bs : List Byte}
    (hbs : Config.within bound bs.length = true) : Memory.Fits bound (memWriteList m 0 bs) := by
  refine ⟨memWriteList_wf h.1 0 bs, fun c hc => ?_⟩
  rcases memWriteList_mem hc with ⟨_, hlt⟩ | hm
  · exact below_of_lt hbs (by omega)
  · exact h.2 c hm

/-! ### The touch and the page registers -/

/-- What holds of the touch and the page registers: `tp_fv` marks fields from the first on (10_state.md R30), and
the register of an absent field is 0x00 (R19, R20). -/
structure FieldInv (d : DecState) : Prop where
  tpFv_prefix : d.tpFv = 0b000 ∨ d.tpFv = 0b001 ∨ d.tpFv = 0b011 ∨ d.tpFv = 0b111
  tpPage_absent : d.tpFv[0] = false → d.tpPage = 0x00
  tpId_absent : d.tpFv[1] = false → d.tpId = 0x00
  tpState_absent : d.tpFv[2] = false → d.tpState = 0x00
  pgPage_absent : d.pgFv = false → d.pgPage = 0x00

/-- The bits of `tp_fv` tell which fields are present (R19). -/
theorem touchPresent_bits (page id state : Option Byte) :
    (touchPresent page id state)[0] = page.isSome ∧ (touchPresent page id state)[1] = id.isSome ∧
    (touchPresent page id state)[2] = state.isSome := by
  have bits : ∀ a b c : Bool, (BitVec.ofBool c ++ BitVec.ofBool b ++ BitVec.ofBool a)[0] = a ∧
      (BitVec.ofBool c ++ BitVec.ofBool b ++ BitVec.ofBool a)[1] = b ∧
      (BitVec.ofBool c ++ BitVec.ofBool b ++ BitVec.ofBool a)[2] = c := by decide
  exact bits page.isSome id.isSome state.isSome

/-- A frame's fields are present from the first on, since a list has no gaps (42_frame_decoder.md R99). -/
theorem touchPresent_prefix (F : List Byte) :
    touchPresent F[1]? F[2]? F[3]? = 0b000 ∨ touchPresent F[1]? F[2]? F[3]? = 0b001 ∨
    touchPresent F[1]? F[2]? F[3]? = 0b011 ∨ touchPresent F[1]? F[2]? F[3]? = 0b111 := by
  match F with
  | [] | [_] => left; simp [touchPresent]
  | [_, _] => right; left; simp [touchPresent]
  | [_, _, _] => right; right; left; simp [touchPresent]
  | _ :: _ :: _ :: _ :: _ => right; right; right; simp [touchPresent]

theorem fieldValue_of_absent {f : Option Byte} (h : f.isSome = false) : fieldValue f = 0x00 := by
  cases f with
  | none => rfl
  | some v => cases h

theorem classifyTouch_fieldInv {d : DecState} (h : FieldInv d) (F : List Byte) :
    FieldInv (classifyTouch F d).1 where
  tpFv_prefix := touchPresent_prefix F
  tpPage_absent ha := fieldValue_of_absent ((touchPresent_bits ..).1.symm.trans ha)
  tpId_absent ha := fieldValue_of_absent ((touchPresent_bits ..).2.1.symm.trans ha)
  tpState_absent ha := fieldValue_of_absent ((touchPresent_bits ..).2.2.symm.trans ha)
  pgPage_absent := h.pgPage_absent

theorem classifyPage_fieldInv {d : DecState} (h : FieldInv d) (F : List Byte) :
    FieldInv (classifyPage F d).1 where
  tpFv_prefix := h.tpFv_prefix
  tpPage_absent := h.tpPage_absent
  tpId_absent := h.tpId_absent
  tpState_absent := h.tpState_absent
  pgPage_absent := fieldValue_of_absent

/-- What classifying a frame can do: nothing, or the registers and the event of its tag. -/
theorem classify_cases (F : List Byte) (d : DecState) :
    classify F d = (d, []) ∨ classify F d = classifyTouch F d ∨ classify F d = classifyPage F d := by
  unfold classify
  split
  · exact .inl rfl
  · split
    · exact .inr (.inl rfl)
    · split
      · exact .inr (.inr rfl)
      · exact .inl rfl

theorem classify_fieldInv {d : DecState} (h : FieldInv d) (F : List Byte) : FieldInv (classify F d).1 := by
  obtain hc | hc | hc := classify_cases F d <;> rw [hc]
  · exact h
  · exact classifyTouch_fieldInv h F
  · exact classifyPage_fieldInv h F

/-! ### The frame in progress -/

theorem trailingTerm_concat (bs : List Byte) (b : Byte) :
    trailingTerm (bs ++ [b]) = if b = Config.termByte then trailingTerm bs + 1 else 0 := by
  unfold trailingTerm
  split <;> simp_all

/-- The next run count, where the byte does not complete the frame: it is not stored as 3 (conflict C7). -/
theorem countTerm_toNat {run : BitVec 2} {b : Byte} (h : run.toNat ≤ 2) (h3 : countTerm run b ≠ 3) :
    (countTerm run b).toNat = (if b = Config.termByte then run.toNat + 1 else 0) ∧ (countTerm run b).toNat ≤ 2 := by
  unfold countTerm at h3 ⊢
  split
  next hb =>
    rw [if_pos hb] at h3
    have hne : (run + 1).toNat ≠ 3 := fun he => h3 (BitVec.eq_of_toNat_eq he)
    have hadd : (run + 1).toNat = (run.toNat + 1) % 4 := BitVec.toNat_add run 1
    omega
  next => exact ⟨rfl, by decide⟩

/-- In a frame in progress, IDLE already has the empty buffer that a first byte begins with (42_frame_decoder.md
R90). -/
theorem FrameInv.enterFrame_eq {p : Config.Params} {d : DecState} (h : FrameInv p d) :
    enterFrame d = { d with st := .recv } := by
  obtain ⟨st, run, acc, cnt, drop⟩ := d
  cases st with
  | recv => rfl
  | idle =>
    obtain rfl : cnt = 0 := h.idle_iff.mp rfl
    obtain ⟨rfl, rfl⟩ : run = 0 ∧ drop = false := h.idle_run rfl
    rfl

section
variable {p : Config.Params} {d : DecState}

theorem FrameInv.appended_eq (h : FrameInv p d) (b : Byte) :
    appended d b = { d with st := .recv, acc := memWrite d.acc d.cnt b, cnt := d.cnt + 1 } := by
  rw [appended, h.enterFrame_eq]

theorem FrameInv.overflowed_eq (h : FrameInv p d) :
    overflowed d = { d with st := .recv, drop := true, ovfSeen := true } := by
  rw [overflowed, h.enterFrame_eq]

/-- A byte appended to the frame in progress, which it does not complete (42_frame_decoder.md R92). -/
theorem FrameInv.append (h : FrameInv p d) (hwf : Memory.wf d.acc = true) {b : Byte}
    (hroom : Config.below p.bufCap d.cnt = true) (h3 : countTerm d.run b ≠ 3) :
    FrameInv p { appended d b with run := countTerm d.run b } := by
  obtain ⟨hcount, hle⟩ := countTerm_toNat h.run_le h3
  rw [h.appended_eq]
  exact
    { idle_iff := ⟨nofun, nofun⟩
      idle_run := nofun
      run_le := hle
      run_trailing := fun hd => by
        have hacc : memPrefix (memWrite d.acc d.cnt b) (d.cnt + 1) = accBytes d ++ [b] := memPrefix_memWrite hwf d.cnt b
        rw [accBytes, hacc, trailingTerm_concat, ← h.run_trailing hd]
        exact hcount
      cnt_le := below_le hroom
      drop_full := fun hd => by
        rw [h.drop_full hd, not_below_self] at hroom
        cases hroom }

/-- A byte discarded because ACC is full, which does not complete the frame (42_frame_decoder.md R93). -/
theorem FrameInv.overflow (h : FrameInv p d) (hlegal : p.legal = true) {b : Byte}
    (hroom : Config.below p.bufCap d.cnt = false) (h3 : countTerm d.run b ≠ 3) :
    FrameInv p { overflowed d with run := countTerm d.run b } := by
  have hfull : p.bufCap = some d.cnt := eq_of_not_below h.cnt_le hroom
  rw [h.overflowed_eq]
  exact
    { idle_iff := ⟨nofun, fun h0 => (bufCap_ne_zero hlegal (hfull.trans (congrArg some h0))).elim⟩
      idle_run := nofun
      run_le := (countTerm_toNat h.run_le h3).2
      run_trailing := nofun
      cnt_le := h.cnt_le
      drop_full := fun _ => hfull }

theorem frameInv_toIdle (p : Config.Params) (d : DecState) : FrameInv p (toIdle d) where
  idle_iff := ⟨fun _ => rfl, fun _ => rfl⟩
  idle_run _ := ⟨rfl, rfl⟩
  run_le := Nat.zero_le 2
  run_trailing _ := rfl
  cnt_le := within_zero p.bufCap
  drop_full := nofun

/-! ### The decoder's invariant -/

theorem DecInv.acc_fits (h : DecInv p d) : Memory.Fits p.bufCap d.acc := ⟨h.acc_wf, h.acc_below⟩

theorem DecInv.fob_fits (h : DecInv p d) : Memory.Fits p.frameMax d.fob := ⟨h.fob_wf, h.fob_below⟩

theorem DecInv.fieldInv (h : DecInv p d) : FieldInv d :=
  ⟨h.tpFv_prefix, h.tpPage_absent, h.tpId_absent, h.tpState_absent, h.pgPage_absent⟩

/-- The invariant from its parts: the frame in progress, the arrays, and the touch and page registers. -/
theorem DecInv.of_parts (hframe : FrameInv p d) (hseen : d.drop = true → d.ovfSeen = true)
    (hacc : Memory.Fits p.bufCap d.acc) (hfob : Memory.Fits p.frameMax d.fob)
    (hlen : Config.within p.frameMax d.fobLen = true) (hfield : FieldInv d) : DecInv p d :=
  { hframe, hfield with
    drop_seen := hseen, acc_wf := hacc.1, fob_wf := hfob.1, acc_below := hacc.2, fob_below := hfob.2
    fobLen_le := hlen }

/-- Every completion leaves an empty buffer (42_frame_decoder.md R96), so only the arrays and the event registers
are left to look at. -/
theorem decInv_toIdle (hacc : Memory.Fits p.bufCap d.acc) (hfob : Memory.Fits p.frameMax d.fob)
    (hlen : Config.within p.frameMax d.fobLen = true) (hfield : FieldInv d) : DecInv p (toIdle d) :=
  .of_parts (frameInv_toIdle p d) nofun hacc hfob hlen { hfield with }

theorem decInv_reset (p : Config.Params) (gen : Nat) : DecInv p { DecState.reset with fobGen := gen } :=
  decInv_toIdle (d := { DecState.reset with fobGen := gen }) ⟨rfl, nofun⟩ ⟨rfl, nofun⟩ (within_zero p.frameMax)
    ⟨.inl rfl, fun _ => rfl, fun _ => rfl, fun _ => rfl, fun _ => rfl⟩

theorem decStep_keeps_decInv {e : DecState} {b : Byte} {evs : List DecEvent} (hlegal : p.legal = true)
    (h : DecInv p d) (hstep : decStep p d b = .ok (e, evs)) : DecInv p e := by
  have hcases := decStep_cases p d b
  have happ := h.toFrameInv.appended_eq b
  have hovf := h.toFrameInv.overflowed_eq
  have hwrite : Config.below p.bufCap d.cnt = true → Memory.Fits p.bufCap (memWrite d.acc d.cnt b) :=
    fun hroom => memWrite_fits h.acc_fits hroom b
  simp only [h.toFrameInv.enterFrame_eq] at hcases
  rw [hstep] at hcases
  obtain ⟨h3, hroom, heq⟩ | ⟨h3, hroom, heq⟩ | ⟨_, hroom, _, heq⟩ | ⟨_, hroom, heq⟩ |
    ⟨_, hroom, _, F, hF, heq⟩ := hcases
  · cases heq
    have hframe := h.toFrameInv.append h.acc_wf hroom h3
    rw [happ] at hframe ⊢
    exact .of_parts hframe h.drop_seen (hwrite hroom) h.fob_fits h.fobLen_le { h.fieldInv with }
  · cases heq
    have hframe := h.toFrameInv.overflow hlegal hroom h3
    rw [hovf] at hframe ⊢
    exact .of_parts hframe (fun _ => rfl) h.acc_fits h.fob_fits h.fobLen_le { h.fieldInv with }
  · cases heq
    rw [happ]
    exact decInv_toIdle (hwrite hroom) h.fob_fits h.fobLen_le { h.fieldInv with }
  · cases heq
    rw [hovf]
    exact decInv_toIdle h.acc_fits h.fob_fits h.fobLen_le { h.fieldInv with }
  · cases heq
    have hlen : Config.within p.frameMax F.length = true := by
      rw [hF, memPrefix_length]
      exact within_frameMax (n := d.cnt + 1) (below_le hroom)
    have hfield : FieldInv (delivered (appended d b) F) := by
      rw [happ]
      exact { h.fieldInv with }
    refine decInv_toIdle ?_ ?_ ?_ (classify_fieldInv hfield F)
    · rw [classify_acc, happ]
      exact hwrite hroom
    · rw [classify_fob, happ]
      exact memWriteList_fits h.fob_fits hlen
    · rw [classify_fobLen]
      exact hlen

/-- What every byte keeps, a chunk keeps (42_frame_decoder.md R89). -/
theorem decIngest_induction {P : DecState → Prop}
    (hstep : ∀ {d e : DecState} {b : Byte} {evs : List DecEvent}, P d → decStep p d b = .ok (e, evs) → P e)
    {d e : DecState} {bs : List Byte} {evs : List DecEvent} (hd : P d) (h : decIngest p d bs = .ok (e, evs)) : P e := by
  induction bs generalizing d evs with
  | nil => cases h; exact hd
  | cons b bs ih =>
    obtain ⟨d1, e1, e2, h1, h2, -⟩ := decIngest_cons_inv h
    exact ih (hstep hd h1) h2

theorem decIngest_keeps_decInv {e : DecState} {bs : List Byte} {evs : List DecEvent} (hlegal : p.legal = true)
    (h : DecInv p d) (hbs : decIngest p d bs = .ok (e, evs)) : DecInv p e :=
  decIngest_induction (decStep_keeps_decInv hlegal) h hbs

end

end Sys2Proof.Machine
end

section
/-! What `enc_encode` produces fits ENC's registers, and every edge keeps ENC's invariant (10_state.md R21 to R23;
41_command_encoder.md R81 to R83). -/

namespace Sys2Proof.Machine

/-! ### Lengths of spellings -/

theorem decDigits_length (fuel v : Nat) : (decDigits fuel v).length ≤ fuel := by
  induction fuel generalizing v with
  | zero => exact Nat.le_refl 0
  | succ fuel ih =>
    unfold decDigits
    split
    · simp
    · have := ih (v / 10)
      simpa using this

theorem decSpelling_length (v : Half) : (decSpelling v).length ≤ 5 := decDigits_length 5 v.toNat

theorem colourName_length (k : BitVec 3) : (colourName k).length ≤ 6 := by
  revert k
  decide

/-- The longest colour operand is the name of YELLOW (41_command_encoder.md R71). -/
theorem spellColour_length {c : Colour} {k : List Byte} (h : spellColour c = .ok k) : k.length ≤ 6 := by
  cases c with
  | named n => cases h; exact colourName_length n
  | packed v => cases h; exact Nat.le_succ_of_le (decSpelling_length v)
  | rgb r g b => cases h; exact Nat.le_succ_of_le (decSpelling_length _)
  | hex len bytes =>
    simp only [spellColour] at h
    split at h
    next v _ => cases h; exact Nat.le_succ_of_le (decSpelling_length v)
    next => cases h

/-! ### The lists of `enc_encode` -/

/-- A list that ENC can queue: it ends in the terminator, and has at most `n` bytes (41_command_encoder.md R83). -/
def Queueable (n : Nat) (L : List Byte) : Prop := (∃ body, L = body ++ Config.ff3) ∧ L.length ≤ n

theorem ff3_length : Config.ff3.length = 3 := rfl

theorem encodePage_queueable (n : Half) : Queueable 32 (encodePage n) := by
  refine ⟨⟨_, rfl⟩, ?_⟩
  have := decSpelling_length n
  simp only [encodePage, List.length_append, List.length_cons, List.length_nil, ff3_length]
  omega

theorem encodeCircle_queueable {word L : List Byte} {x y r : Half} {col : Colour} (hword : word.length ≤ 5)
    (h : encodeCircle word x y r col = .ok L) : Queueable 32 L := by
  unfold encodeCircle at h
  split at h
  next => cases h
  next k hk =>
    cases h
    refine ⟨⟨_, rfl⟩, ?_⟩
    have := decSpelling_length x
    have := decSpelling_length y
    have := decSpelling_length r
    have := spellColour_length hk
    simp only [comma, List.length_append, List.length_cons, List.length_nil, ff3_length]
    omega

section
variable {p : Config.Params} {comp text : StrArg} {L : List Byte}

theorem encodeSetTxt_queueable (h : encodeSetTxt p comp text = .ok L) : Queueable (p.compMax + p.textMax + 10) L := by
  unfold encodeSetTxt at h
  split at h
  next => cases h
  next c hc =>
    split at h
    next => cases h
    next t ht =>
      cases h
      refine ⟨⟨_, rfl⟩, ?_⟩
      have := readString_length hc
      have := readString_length ht
      simp only [List.length_append, List.length_cons, List.length_nil, ff3_length]
      omega

theorem encodeVis_queueable {v : Bool} (h : encodeVis p comp v = .ok L) : Queueable (p.compMax + 9) L := by
  unfold encodeVis at h
  split at h
  next => cases h
  next c hc =>
    cases h
    refine ⟨⟨_, rfl⟩, ?_⟩
    have := readString_length hc
    simp only [comma, List.length_append, List.length_cons, List.length_nil, ff3_length]
    omega

theorem encodeSetBco_queueable {col : Colour} (h : encodeSetBco p comp col = .ok L) :
    Queueable (2 * p.compMax + 21) L := by
  unfold encodeSetBco at h
  split at h
  next => cases h
  next c hc =>
    split at h
    next => cases h
    next k hk =>
      cases h
      refine ⟨⟨_, rfl⟩, ?_⟩
      have := readString_length hc
      have := spellColour_length hk
      simp only [List.length_append, List.length_cons, List.length_nil, ff3_length]
      omega

theorem encodeClick_queueable (h : encodeClick p comp = .ok L) : Queueable (2 * p.compMax + 22) L := by
  unfold encodeClick at h
  split at h
  next => cases h
  next c hc =>
    cases h
    refine ⟨⟨_, rfl⟩, ?_⟩
    have := readString_length hc
    simp only [List.length_append, List.length_cons, List.length_nil, ff3_length]
    omega

theorem encodeRaw_queueable (h : encodeRaw p text = .ok L) : Queueable (p.textMax + 3) L := by
  unfold encodeRaw at h
  split at h
  next => cases h
  next t ht =>
    cases h
    refine ⟨⟨_, rfl⟩, ?_⟩
    have := readString_length ht
    simp only [List.length_append, ff3_length]
    omega

theorem Queueable.mono {m n : Nat} (h : Queueable m L) (hmn : m ≤ n) : Queueable n L := ⟨h.1, h.2.trans hmn⟩

/-- Every list of `enc_encode` ends in the terminator and has at most `ENC_MAXLEN` bytes (10_state.md R22;
41_command_encoder.md R83). -/
theorem encEncode_queueable {d : Descriptor} (h : encEncode p d = .ok L) : Queueable p.encMaxLen L := by
  have h32 : 32 ≤ p.encMaxLen := by unfold Config.Params.encMaxLen; omega
  have htxt : p.compMax + p.textMax + 10 ≤ p.encMaxLen := by unfold Config.Params.encMaxLen; omega
  have hclick : 2 * p.compMax + 22 ≤ p.encMaxLen := by unfold Config.Params.encMaxLen; omega
  have hraw : p.textMax + 3 ≤ p.encMaxLen := by unfold Config.Params.encMaxLen; omega
  unfold encEncode at h
  split at h
  · cases h; exact ⟨⟨_, rfl⟩, by show 9 ≤ p.encMaxLen; omega⟩
  · cases h; exact (encodePage_queueable d.n).mono h32
  · exact (encodeSetTxt_queueable h).mono htxt
  · exact (encodeVis_queueable h).mono (by omega)
  · exact (encodeCircle_queueable (by decide) h).mono h32
  · exact (encodeCircle_queueable (by decide) h).mono h32
  · exact (encodeSetBco_queueable h).mono (by omega)
  · exact (encodeClick_queueable h).mono hclick
  · exact (encodeRaw_queueable h).mono hraw
  · cases h

end

/-! ### The encoder's invariant -/

section
variable {p : Config.Params}

theorem encInv_reset (p : Config.Params) : EncInv p EncState.reset where
  idle_empty _ := ⟨rfl, rfl⟩
  send_index := nofun
  send_term := nofun
  eq_le := Nat.zero_le _
  errCode_ne := by decide
  errV_idle := nofun

/-- The error pulse falls (41_command_encoder.md R81). -/
theorem EncInv.beginEdge {e : EncState} (h : EncInv p e) : EncInv p { e with errV := false } :=
  { h with errV_idle := nofun }

/-- ENC right after it accepted a list (41_command_encoder.md R81). -/
theorem encInv_sending {s : State} {L : List Byte} (h : Queueable p.encMaxLen L) : EncInv p (s.sending L).enc where
  idle_empty := nofun
  send_index _ := by
    obtain ⟨⟨body, rfl⟩, _⟩ := h
    simp [ff3_length]
  send_term _ := h.1
  eq_le := h.2
  errCode_ne := by rw [State.sending_enc_errCode]; decide
  errV_idle := nofun

/-- ENC right after it accepted a command in error (60_exceptions.md R116). -/
theorem EncInv.failing {s : State} (h : EncInv p s.enc) (hidle : s.enc.est = .idle) (e : EncError) :
    EncInv p (s.failing e.code).enc :=
  have hcode : e.code ≠ 3 ∧ e.code ≠ 0 := by cases e <;> decide
  { h with
    errCode_ne := hcode.1
    errV_idle := fun _ => ⟨hidle, hcode.2⟩ }

/-- The command on the pins makes of ENC what accepting it gives; nothing changes without one or in E_SEND. -/
theorem afterCommand_cases (s : State) :
    afterCommand s = s ∨ s.enc.est = .idle ∧
      ((∃ L, encEncode s.params s.pins.cmd = .ok L ∧ afterCommand s = s.sending L) ∨
        ∃ e : EncError, afterCommand s = s.failing e.code) := by
  unfold afterCommand
  split
  next hacc =>
    cases hr : encEncode s.params s.pins.cmd with
    | ok L => exact .inr ⟨hacc.2, .inl ⟨L, rfl, rfl⟩⟩
    | error e => exact .inr ⟨hacc.2, .inr ⟨e, rfl⟩⟩
  next => exact .inl rfl

theorem afterCommand_send {s : State} (h : s.enc.est = .send) : afterCommand s = s := by
  obtain hs | ⟨hidle, _⟩ := afterCommand_cases s
  · exact hs
  · rw [h] at hidle; cases hidle

theorem afterCommand_keeps_encInv {s : State} (h : EncInv s.params s.enc) : EncInv s.params (afterCommand s).enc := by
  obtain hs | ⟨hidle, ⟨L, hL, hs⟩ | ⟨e, hs⟩⟩ := afterCommand_cases s <;> rw [hs]
  · exact h
  · exact encInv_sending (encEncode_queueable hL)
  · exact h.failing hidle e

/-- Sending a byte in E_SEND, whose error pulse has fallen (41_command_encoder.md R82). -/
theorem EncInv.sendByte {s : State} (h : EncInv p s.enc) (hsend : s.enc.est = .send) (herr : s.enc.errV = false) :
    EncInv p s.sendByte.enc := by
  have hidx := h.send_index hsend
  obtain ⟨_, hs⟩ | ⟨hlast, hs⟩ := sendByte_cases s <;> rw [hs]
  · exact
      { idle_empty := fun _ => ⟨rfl, rfl⟩
        send_index := nofun
        send_term := nofun
        eq_le := Nat.zero_le _
        errCode_ne := h.errCode_ne
        errV_idle := fun hv => by rw [herr] at hv; cases hv }
  · exact
      { idle_empty := fun hidle => by rw [hsend] at hidle; cases hidle
        send_index := fun _ => by show s.enc.eidx + 1 < s.enc.eq.length; omega
        send_term := h.send_term
        eq_le := h.eq_le
        errCode_ne := h.errCode_ne
        errV_idle := fun hv => by rw [herr] at hv; cases hv }

theorem endEdge_enc (s t : State) : (s.endEdge t).enc = if s.txFire then t.sendByte.enc else t.enc := by
  unfold State.endEdge
  split <;> rfl

theorem txFire_send {s : State} (h : s.txFire = true) : s.enc.est = .send := by
  simp only [State.txFire, State.txValid, Bool.and_eq_true, decide_eq_true_eq] at h
  exact h.1.1

/-- An edge outside reset, whatever it does to DEC, keeps ENC's invariant: a byte is sent only in E_SEND, where no
command is accepted. -/
theorem endEdge_keeps_encInv {s : State} (h : EncInv s.params s.enc) (d : DecState) (q : EvPulses) :
    EncInv s.params (s.endEdge (afterCommand { s.beginEdge with dec := d, pulses := q })).enc := by
  have hbegin : EncInv s.params ({ s.beginEdge with dec := d, pulses := q } : State).enc := h.beginEdge
  rw [endEdge_enc]
  split
  next hfire =>
    have hsend : ({ s.beginEdge with dec := d, pulses := q } : State).enc.est = .send := txFire_send hfire
    rw [afterCommand_send hsend]
    exact hbegin.sendByte hsend rfl
  next => exact afterCommand_keeps_encInv (s := { s.beginEdge with dec := d, pulses := q }) hbegin

end

/-! ### The invariant of the machine -/

/-- Settles O46: right after reset nothing is in progress in DEC or ENC. -/
theorem resetMeetsInvariant : Obligations.ResetMeetsInvariant :=
  fun p hlegal => ⟨hlegal, decInv_reset p 0, encInv_reset p⟩

/-- Settles O47, by what a step can do: the reset edge loads reset values, and any other edge takes its bytes one by
one, offers the command and sends the byte that was taken, each of which keeps its unit's invariant. -/
theorem stepKeepsInvariant : Obligations.StepKeepsInvariant := by
  intro s t hinv hstep
  obtain ⟨_, hs⟩ | ⟨_, d, evs, q, hbytes, _, hs⟩ := step_cases s <;> cases hs.symm.trans hstep
  · exact ⟨hinv.legal, decInv_reset s.params _, encInv_reset s.params⟩
  · have hdec := decIngest_keeps_decInv hinv.legal hinv.dec hbytes
    have henc := endEdge_keeps_encInv hinv.enc d q
    exact ⟨by simpa using hinv.legal, by simpa using hdec, by simpa using henc⟩

end Sys2Proof.Machine
end

section
/-! What `dec_step` emits and what its events leave in the event registers (10_state.md R13, R17 to R20;
42_frame_decoder.md R94 to R101), and from there what a chunk does. -/

namespace Sys2Proof.Machine

/-! ### Completion -/

theorem countTerm_eq_three (run : BitVec 2) (b : Byte) : countTerm run b = 3 ↔ run = 2 ∧ b = 0xFF := by
  have hrun : ∀ r : BitVec 2, r + 1 = 3 ↔ r = 2 := by decide
  unfold countTerm
  split
  next hb => exact ⟨fun h => ⟨(hrun run).mp h, hb⟩, fun h => (hrun run).mpr h.1⟩
  next hb => exact ⟨nofun, fun h => (hb h.2).elim⟩

/-- The byte that completes a frame: IDLE counts from 0, so there is none (42_frame_decoder.md R90, R91). -/
theorem completes_iff (d : DecState) (b : Byte) :
    countTerm (enterFrame d).run b = 3 ↔ d.st = .recv ∧ d.run = 2 ∧ b = 0xFF := by
  rw [countTerm_eq_three, enterFrame_run]
  cases hst : d.st with
  | idle => simp
  | recv => simp

theorem decStep_goes_on {d : DecState} {b : Byte} (h : countTerm (enterFrame d).run b ≠ 3) (p : Config.Params) :
    ∃ e, decStep p d b = .ok (e, []) ∧ e.st = .recv := by
  obtain ⟨_, _, heq⟩ | ⟨_, _, heq⟩ | ⟨h3, _⟩ | ⟨h3, _⟩ | ⟨h3, _⟩ := decStep_cases p d b
  · exact ⟨_, heq, enterFrame_st d⟩
  · exact ⟨_, heq, enterFrame_st d⟩
  · exact (h h3).elim
  · exact (h h3).elim
  · exact (h h3).elim

theorem decStep_completes {d : DecState} {b : Byte} (h : countTerm (enterFrame d).run b = 3) (p : Config.Params) :
    ∃ d1 ev evs, decStep p d b = .ok (toIdle d1, ev :: evs) := by
  obtain ⟨h3, _⟩ | ⟨h3, _⟩ | ⟨_, _, _, heq⟩ | ⟨_, _, heq⟩ | ⟨_, _, _, _, _, heq⟩ := decStep_cases p d b
  · exact (h3 h).elim
  · exact (h3 h).elim
  · exact ⟨_, _, _, heq⟩
  · exact ⟨_, _, _, heq⟩
  · exact ⟨_, _, _, heq⟩

/-- Settles O37, by whether the run count reaches 3. -/
theorem completionExactlyAtThirdTerminatorByte : Obligations.CompletionExactlyAtThirdTerminatorByte := by
  intro p d b
  by_cases h3 : countTerm (enterFrame d).run b = 3
  · obtain ⟨d1, ev, evs, heq⟩ := decStep_completes h3 p
    exact ⟨_, _, heq, ⟨fun _ => (completes_iff d b).mp h3, fun _ => List.cons_ne_nil _ _⟩,
      fun _ => ⟨rfl, rfl, rfl, rfl⟩, nofun⟩
  · obtain ⟨e, heq, hst⟩ := decStep_goes_on h3 p
    exact ⟨e, [], heq, ⟨fun h => (h rfl).elim, fun h => (h3 ((completes_iff d b).mpr h)).elim⟩,
      fun h => (h rfl).elim, fun _ => hst⟩

/-! ### What a step changes outside the frame in progress -/

/-- `e` is `d` but for the frame in progress, ACC and `ovf_seen`: the event registers are the same. -/
def SameEventRegisters (d e : DecState) : Prop :=
  ∃ st run acc cnt drop seen,
    e = { d with st := st, run := run, acc := acc, cnt := cnt, drop := drop, ovfSeen := seen }

theorem enterFrame_sameEventRegisters (d : DecState) : SameEventRegisters d (enterFrame d) := by
  unfold enterFrame
  split
  · exact ⟨_, _, _, _, _, _, rfl⟩
  · exact ⟨_, _, _, _, _, _, rfl⟩

theorem SameEventRegisters.update {d e : DecState} (h : SameEventRegisters d e) (st : DecMode) (run : BitVec 2)
    (acc : Memory) (cnt : Nat) (drop seen : Bool) :
    SameEventRegisters d { e with st := st, run := run, acc := acc, cnt := cnt, drop := drop, ovfSeen := seen } := by
  obtain ⟨_, _, _, _, _, _, rfl⟩ := h
  exact ⟨_, _, _, _, _, _, rfl⟩

/-- What a step does to the event registers, with the events that tell of it: nothing, or the delivery and the
classification of one frame (42_frame_decoder.md R95, R97). -/
theorem decStep_events {p : Config.Params} {d e : DecState} {b : Byte} {evs : List DecEvent}
    (h : decStep p d b = .ok (e, evs)) :
    ((evs = [] ∨ evs = [.frameDropped]) ∧ SameEventRegisters d e) ∨
    ∃ d1 F, SameEventRegisters d d1 ∧ e = toIdle (classify F (delivered d1 F)).1 ∧
      evs = .receivedData F :: (classify F (delivered d1 F)).2 := by
  have hsame := (enterFrame_sameEventRegisters d).update
  have hcases := decStep_cases p d b
  rw [h] at hcases
  obtain ⟨_, _, heq⟩ | ⟨_, _, heq⟩ | ⟨_, _, _, heq⟩ | ⟨_, _, heq⟩ | ⟨_, _, _, F, _, heq⟩ := hcases <;> cases heq
  · exact .inl ⟨.inl rfl, hsame ..⟩
  · exact .inl ⟨.inl rfl, hsame ..⟩
  · exact .inl ⟨.inr rfl, hsame ..⟩
  · exact .inl ⟨.inr rfl, hsame ..⟩
  · exact .inr ⟨appended d b, F, hsame .., rfl, rfl⟩

/-! ### The current page -/

theorem decStep_curPage {p : Config.Params} {d e : DecState} {b : Byte} {evs : List DecEvent}
    (h : decStep p d b = .ok (e, evs)) : (e.curPage, e.curPageV) = evs.foldl pageAfter (d.curPage, d.curPageV) := by
  obtain ⟨rfl | rfl, _, _, _, _, _, _, rfl⟩ | ⟨d1, F, ⟨_, _, _, _, _, _, rfl⟩, rfl, rfl⟩ := decStep_events h
  · rfl
  · rfl
  · obtain hc | hc | hc := classify_cases F (delivered _ F) <;> rw [hc]
    · rfl
    · rfl
    · show (F[1]?.getD d.curPage, F[1]?.isSome || d.curPageV) = pageAfter (d.curPage, d.curPageV) (.pageChanged F[1]?)
      cases F[1]? with
      | none => rfl
      | some v => rfl

/-- Settles O41, by induction on the chunk. -/
theorem currentPageFollowsPageEvents : Obligations.CurrentPageFollowsPageEvents := by
  intro p d e bs evs h
  induction bs generalizing d evs with
  | nil => cases h; rfl
  | cons b bs ih =>
    obtain ⟨d1, e1, e2, h1, h2, rfl⟩ := decIngest_cons_inv h
    rw [List.foldl_append, ← decStep_curPage h1]
    exact ih d1 e2 h2

/-! ### The latest event of each kind -/

/-- A fold that keeps the latest value, over two lists: the later list's value, or else the earlier one's. -/
theorem foldl_latest_append {α : Type} {g : Option α → DecEvent → Option α} (hg : ∀ o e, g o e = (g none e).or o)
    (l1 l2 : List DecEvent) : (l1 ++ l2).foldl g none = (l2.foldl g none).or (l1.foldl g none) := by
  induction l2 using List.reverseRecOn with
  | nil => simp
  | append_singleton l2 e ih =>
    rw [← List.append_assoc, List.foldl_concat, List.foldl_concat, ih, hg, hg (l2.foldl g none), Option.or_assoc]

theorem lastReceived_append (l1 l2 : List DecEvent) :
    lastReceived (l1 ++ l2) = (lastReceived l2).or (lastReceived l1) :=
  foldl_latest_append (fun _ e => by cases e <;> rfl) l1 l2

theorem lastTouch_append (l1 l2 : List DecEvent) : lastTouch (l1 ++ l2) = (lastTouch l2).or (lastTouch l1) :=
  foldl_latest_append (fun _ e => by cases e <;> rfl) l1 l2

theorem lastPage_append (l1 l2 : List DecEvent) : lastPage (l1 ++ l2) = (lastPage l2).or (lastPage l1) :=
  foldl_latest_append (fun _ e => by cases e <;> rfl) l1 l2

/-- The latest value, if there is one, is held; without one the registers are kept. -/
def Latest {α : Type} (last : Option α) (holds : α → Prop) (kept : Prop) : Prop :=
  match last with
  | some x => holds x
  | none => kept

/-- Registers that hold the latest value after one run, and again after the next, hold the latest of both. -/
theorem Latest.trans {α : Type} {l1 l2 : Option α} {holds1 holds2 : α → Prop} {kept1 kept2 kept : Prop}
    (h1 : Latest l1 holds1 kept1) (h2 : Latest l2 holds2 kept2) (hholds : kept2 → ∀ x, holds1 x → holds2 x)
    (hkept : kept1 → kept2 → kept) : Latest (l2.or l1) holds2 kept := by
  cases l2 with
  | some x => exact h2
  | none =>
    cases l1 with
    | some x => exact hholds h2 x h1
    | none => exact hkept h1 h2

/-- FOB shows the frame `F` (10_state.md R18). -/
def FrameHeld (e : DecState) (F : List Byte) : Prop :=
  e.fobLen = F.length ∧ ∀ (i : Nat) (h : i < F.length), fobAt e i = F[i]

/-- The touch registers hold the fields of a touch event (10_state.md R19). -/
def TouchHeld (e : DecState) : Option Byte × Option Byte × Option Byte → Prop
  | (pg, id, st) =>
    e.tpPage = pg.getD 0 ∧ e.tpId = id.getD 0 ∧ e.tpState = st.getD 0 ∧
    e.tpFv[0] = pg.isSome ∧ e.tpFv[1] = id.isSome ∧ e.tpFv[2] = st.isSome

/-- The page registers hold the field of a page-changed event (10_state.md R20). -/
def PageHeld (e : DecState) (pg : Option Byte) : Prop := e.pgPage = pg.getD 0 ∧ e.pgFv = pg.isSome

def SameFob (d e : DecState) : Prop := e.fob = d.fob ∧ e.fobLen = d.fobLen

def SameTouch (d e : DecState) : Prop :=
  e.tpPage = d.tpPage ∧ e.tpId = d.tpId ∧ e.tpState = d.tpState ∧ e.tpFv = d.tpFv

def SamePage (d e : DecState) : Prop := e.pgPage = d.pgPage ∧ e.pgFv = d.pgFv

/-- From `d` to `e` with the events `evs`: each group of event registers holds the latest event of its kind, or is
as it was. -/
structure LatestHeld (d e : DecState) (evs : List DecEvent) : Prop where
  frame : Latest (lastReceived evs) (FrameHeld e) (SameFob d e)
  touch : Latest (lastTouch evs) (TouchHeld e) (SameTouch d e)
  page : Latest (lastPage evs) (PageHeld e) (SamePage d e)

theorem FrameHeld.of_same {d e : DecState} (hs : SameFob d e) (F : List Byte) (h : FrameHeld d F) : FrameHeld e F := by
  obtain ⟨hfob, hlen⟩ := hs
  refine ⟨hlen.trans h.1, fun i hi => ?_⟩
  rw [← h.2 i hi]
  simp only [fobAt, hfob, hlen, h.1, if_pos hi]

theorem TouchHeld.of_same {d e : DecState} (hs : SameTouch d e) (t : Option Byte × Option Byte × Option Byte)
    (h : TouchHeld d t) : TouchHeld e t := by
  obtain ⟨h1, h2, h3, h4⟩ := hs
  unfold TouchHeld
  rw [h1, h2, h3, h4]
  exact h

theorem PageHeld.of_same {d e : DecState} (hs : SamePage d e) (pg : Option Byte) (h : PageHeld d pg) :
    PageHeld e pg := by
  unfold PageHeld
  rw [hs.1, hs.2]
  exact h

theorem LatestHeld.trans {d d1 e : DecState} {e1 e2 : List DecEvent} (h1 : LatestHeld d d1 e1)
    (h2 : LatestHeld d1 e e2) : LatestHeld d e (e1 ++ e2) where
  frame := by
    rw [lastReceived_append]
    exact h1.frame.trans h2.frame FrameHeld.of_same fun a b => ⟨b.1.trans a.1, b.2.trans a.2⟩
  touch := by
    rw [lastTouch_append]
    exact h1.touch.trans h2.touch TouchHeld.of_same fun ⟨a1, a2, a3, a4⟩ ⟨b1, b2, b3, b4⟩ =>
      ⟨b1.trans a1, b2.trans a2, b3.trans a3, b4.trans a4⟩
  page := by
    rw [lastPage_append]
    exact h1.page.trans h2.page PageHeld.of_same fun a b => ⟨b.1.trans a.1, b.2.trans a.2⟩

/-- A delivered frame is what FOB shows (42_frame_decoder.md R95). -/
theorem frameHeld_of_delivered {d e : DecState} {F : List Byte} (hwf : Memory.wf d.fob = true)
    (hfob : e.fob = memWriteList d.fob 0 F) (hlen : e.fobLen = F.length) : FrameHeld e F := by
  refine ⟨hlen, fun i hi => ?_⟩
  simp [fobAt, hfob, hlen, hi, memRead_memWriteList hwf]

theorem decStep_latestHeld {p : Config.Params} {d e : DecState} {b : Byte} {evs : List DecEvent}
    (hwf : Memory.wf d.fob = true) (h : decStep p d b = .ok (e, evs)) : LatestHeld d e evs := by
  obtain ⟨rfl | rfl, _, _, _, _, _, _, rfl⟩ | ⟨d1, F, ⟨_, _, _, _, _, _, rfl⟩, rfl, rfl⟩ := decStep_events h
  · exact ⟨⟨rfl, rfl⟩, ⟨rfl, rfl, rfl, rfl⟩, rfl, rfl⟩
  · exact ⟨⟨rfl, rfl⟩, ⟨rfl, rfl, rfl, rfl⟩, rfl, rfl⟩
  · obtain hc | hc | hc := classify_cases F (delivered _ F) <;> rw [hc]
    · exact ⟨frameHeld_of_delivered hwf rfl rfl, ⟨rfl, rfl, rfl, rfl⟩, rfl, rfl⟩
    · exact ⟨frameHeld_of_delivered hwf rfl rfl, ⟨rfl, rfl, rfl, touchPresent_bits ..⟩, rfl, rfl⟩
    · exact ⟨frameHeld_of_delivered hwf rfl rfl, ⟨rfl, rfl, rfl, rfl⟩, rfl, rfl⟩

theorem decStep_keeps_fob_wf {p : Config.Params} {d e : DecState} {b : Byte} {evs : List DecEvent}
    (hwf : Memory.wf d.fob = true) (h : decStep p d b = .ok (e, evs)) : Memory.wf e.fob = true := by
  obtain ⟨_, _, _, _, _, _, _, rfl⟩ | ⟨d1, F, ⟨_, _, _, _, _, _, rfl⟩, rfl, _⟩ := decStep_events h
  · exact hwf
  · rw [toIdle_fob, classify_fob]
    exact memWriteList_wf hwf 0 F

theorem decIngest_latestHeld {p : Config.Params} {d e : DecState} {bs : List Byte} {evs : List DecEvent}
    (hwf : Memory.wf d.fob = true) (h : decIngest p d bs = .ok (e, evs)) : LatestHeld d e evs := by
  induction bs generalizing d evs with
  | nil =>
    cases h
    exact ⟨⟨rfl, rfl⟩, ⟨rfl, rfl, rfl, rfl⟩, rfl, rfl⟩
  | cons b bs ih =>
    obtain ⟨d1, e1, e2, h1, h2, rfl⟩ := decIngest_cons_inv h
    exact (decStep_latestHeld hwf h1).trans (ih (decStep_keeps_fob_wf hwf h1) h2)

/-- Settles O40: each step holds its own events, and what is held stays until the next event of its kind. -/
theorem eventRegistersHoldLatestEvent : Obligations.EventRegistersHoldLatestEvent := by
  intro p d e bs evs hwf h
  obtain ⟨hframe, htouch, hpage⟩ := decIngest_latestHeld hwf h
  refine ⟨?_, ?_, ?_⟩
  · cases hlast : lastReceived evs <;> rw [hlast] at hframe <;> exact hframe
  · cases hlast : lastTouch evs <;> rw [hlast] at htouch <;> exact htouch
  · cases hlast : lastPage evs <;> rw [hlast] at hpage <;> exact hpage

/-! ### The memory of an overflow -/

@[simp] theorem appended_ovfSeen (d : DecState) (b : Byte) : (appended d b).ovfSeen = d.ovfSeen := enterFrame_ovfSeen d
@[simp] theorem delivered_ovfSeen (d : DecState) (F : List Byte) : (delivered d F).ovfSeen = d.ovfSeen := rfl

/-- No byte clears `ovf_seen` (10_state.md R16). -/
theorem decStep_keeps_ovfSeen {p : Config.Params} {d e : DecState} {b : Byte} {evs : List DecEvent}
    (hd : d.ovfSeen = true) (h : decStep p d b = .ok (e, evs)) : e.ovfSeen = true := by
  have hcases := decStep_cases p d b
  rw [h] at hcases
  obtain ⟨_, _, heq⟩ | ⟨_, _, heq⟩ | ⟨_, _, _, heq⟩ | ⟨_, _, heq⟩ | ⟨_, _, _, F, _, heq⟩ := hcases <;> cases heq
  · simpa using hd
  · exact rfl
  · simpa using hd
  · exact rfl
  · simpa using hd

/-- Settles O51: an edge outside reset changes DEC by its bytes alone, none of which clears `ovf_seen`. -/
theorem overflowSeenIsSticky : Obligations.OverflowSeenIsSticky := by
  intro s t hstep hrst hseen
  obtain ⟨hr, _⟩ | ⟨_, d, evs, q, hbytes, _, hs⟩ := step_cases s
  · rw [hrst] at hr
    cases hr
  · cases hs.symm.trans hstep
    rw [State.endEdge_dec, afterCommand_dec]
    exact decIngest_induction (P := fun d => d.ovfSeen = true) decStep_keeps_ovfSeen hseen hbytes

end Sys2Proof.Machine
end

section
/-! What an edge does at the pins: the bytes and the pulses, a presented operation, and the outputs (10_state.md
R24 to R30; 42_frame_decoder.md R89, R104). -/

namespace Sys2Proof.Machine

/-! ### Pulses -/

theorem isReceivedData_iff (e : DecEvent) : e.isReceivedData = true ↔ ∃ F, e = .receivedData F := by
  cases e <;> simp [DecEvent.isReceivedData]

theorem isTouch_iff (e : DecEvent) : e.isTouch = true ↔ ∃ p i f, e = .touch p i f := by
  cases e <;> simp [DecEvent.isTouch]

theorem isPageChanged_iff (e : DecEvent) : e.isPageChanged = true ↔ ∃ p, e = .pageChanged p := by
  cases e <;> simp [DecEvent.isPageChanged]

theorem isFrameDropped_iff (e : DecEvent) : e.isFrameDropped = true ↔ e = .frameDropped := by
  cases e <;> simp [DecEvent.isFrameDropped]

/-- Each pulse tells whether its event is among the events of the step (42_frame_decoder.md R104). -/
theorem pulsesOf_iff (evs : List DecEvent) :
    ((pulsesOf evs).rd = true ↔ ∃ F, .receivedData F ∈ evs) ∧
    ((pulsesOf evs).touch = true ↔ ∃ p i f, .touch p i f ∈ evs) ∧
    ((pulsesOf evs).page = true ↔ ∃ p, .pageChanged p ∈ evs) ∧
    ((pulsesOf evs).drop = true ↔ .frameDropped ∈ evs) := by
  simp only [pulsesOf, List.any_eq_true, isReceivedData_iff, isTouch_iff, isPageChanged_iff, isFrameDropped_iff]
  exact
    ⟨⟨fun ⟨_, hmem, F, he⟩ => ⟨F, he ▸ hmem⟩, fun ⟨F, hmem⟩ => ⟨_, hmem, F, rfl⟩⟩,
      ⟨fun ⟨_, hmem, p, i, f, he⟩ => ⟨p, i, f, he ▸ hmem⟩, fun ⟨p, i, f, hmem⟩ => ⟨_, hmem, p, i, f, rfl⟩⟩,
      ⟨fun ⟨_, hmem, p, he⟩ => ⟨p, he ▸ hmem⟩, fun ⟨p, hmem⟩ => ⟨_, hmem, p, rfl⟩⟩,
      ⟨fun ⟨_, hmem, he⟩ => he ▸ hmem, fun hmem => ⟨_, hmem, rfl⟩⟩⟩

/-! ### Chunks in two parts -/

theorem decIngest_append {p : Config.Params} {d d1 d2 : DecState} {A B : List Byte} {e1 e2 : List DecEvent}
    (h1 : decIngest p d A = .ok (d1, e1)) (h2 : decIngest p d1 B = .ok (d2, e2)) :
    decIngest p d (A ++ B) = .ok (d2, e1 ++ e2) := by
  induction A generalizing d e1 with
  | nil => cases h1; exact h2
  | cons b A ih =>
    obtain ⟨d0, f1, f2, hb, hA, rfl⟩ := decIngest_cons_inv h1
    rw [List.append_assoc]
    exact decIngest_cons hb (ih hA)

theorem acceptBytes_append {s t : State} {A : List Byte} (h : s.acceptBytes A = .next t) (B : List Byte) :
    s.acceptBytes (A ++ B) = t.acceptBytes B := by
  rw [← execAll_ingest, List.map_append, execAll_append ((execAll_ingest s A).trans h), execAll_ingest]

/-- The last byte of a chunk: DEC and the events after it, and its own events as the pulses. -/
theorem acceptBytes_concat (s : State) (bs : List Byte) (b : Byte) :
    ∃ d d' first last, decIngest s.params s.dec bs = .ok (d, first) ∧ decStep s.params d b = .ok (d', last) ∧
      decIngest s.params s.dec (bs ++ [b]) = .ok (d', first ++ last) ∧
      s.acceptBytes (bs ++ [b]) = .next { s with dec := d', pulses := pulsesOf last } := by
  obtain ⟨d, first, q, hbs, hacc⟩ := acceptBytes_next s bs
  obtain ⟨d', last, hb⟩ := decStep_isOk s.params d b
  have hlast : decIngest s.params d [b] = .ok (d', last) := by simpa using decIngest_cons hb (decIngest_nil s.params d')
  refine ⟨d, d', first, last, hbs, hb, decIngest_append hbs hlast, ?_⟩
  rw [acceptBytes_append hacc, acceptBytes_cons (acceptByte_next hb)]
  rfl

theorem emittedEvents_of_rst {s : State} (h : s.pins.rst = true) : s.emittedEvents = [] := by
  simp [State.emittedEvents, h]

theorem emittedEvents_of_ingest {s : State} {d : DecState} {evs : List DecEvent} (hrst : s.pins.rst = false)
    (h : decIngest s.params s.dec s.pins.rx = .ok (d, evs)) : s.emittedEvents = evs := by
  simp [State.emittedEvents, hrst, h]

/-- Settles O49: `step_cases` gives DEC after the edge, and the last byte of the chunk the pulses. -/
theorem edgeTakesOfferedBytes : Obligations.EdgeTakesOfferedBytes := by
  intro s hrst
  obtain ⟨hr, _⟩ | ⟨_, d, evs, q, hbytes, hacc, hs⟩ := step_cases s
  · rw [hrst] at hr
    cases hr
  refine ⟨_, evs, hs, ?_, emittedEvents_of_ingest hrst hbytes, fun hrx => ?_, fun bs b hrx => ?_, ?_, ?_, ?_⟩
  · simpa using hbytes
  · rw [hrx] at hbytes hacc
    cases hbytes
    rw [acceptBytes_nil, Host.Outcome.next.injEq] at hacc
    have hq : q = EvPulses.none := congrArg State.pulses hacc.symm
    simpa using hq
  · obtain ⟨d0, d', first, last, hbs, hb, hall, hlast⟩ := acceptBytes_concat s.beginEdge bs b
    rw [hrx] at hbytes hacc
    cases hbytes.symm.trans hall
    have hq : q = pulsesOf last := by
      have hst := hacc.symm.trans hlast
      rw [Host.Outcome.next.injEq] at hst
      exact congrArg State.pulses hst
    refine ⟨d0, first, last, hbs, by simpa using hb, rfl, ?_⟩
    simpa [hq] using pulsesOf_iff last
  · simp
  · simp
  · simp

/-- Settles O50: in reset there is neither event nor pulse; outside it, the last byte is the only one. -/
theorem pulsesShowTheEdgesEvents : Obligations.PulsesShowTheEdgesEvents := by
  intro s t hone hstep
  cases hrst : s.pins.rst with
  | true =>
    obtain ⟨_, hs⟩ | ⟨hr, _⟩ := step_cases s
    · cases hs.symm.trans hstep
      rw [emittedEvents_of_rst hrst]
      exact pulsesOf_iff []
    · rw [hrst] at hr
      cases hr
  | false =>
    obtain ⟨t', evs, hs, hbytes, hemit, hnone, hlast, -⟩ := edgeTakesOfferedBytes s hrst
    cases hs.symm.trans hstep
    rw [hemit]
    match hrx : s.pins.rx, hone with
    | [], _ =>
      rw [hrx] at hbytes
      obtain rfl : [] = evs := congrArg Prod.snd (Except.ok.inj hbytes)
      rw [(hnone hrx).2]
      exact pulsesOf_iff []
    | [b], _ =>
      obtain ⟨d, first, last, hfirst, -, rfl, hpulses⟩ := hlast [] b hrx
      cases hfirst
      exact hpulses

/-! ### An operation presented alone -/

theorem execAll_singleton (s : State) (i : Instr) : execAll s [i] = exec i s := by
  unfold execAll
  cases exec i s <;> rfl

/-- CC's operations after others that leave the pins change nothing more. -/
theorem execAll_append_offeredCc {s t : State} {is : List Instr} (h : execAll s is = .next t)
    (hpins : t.pins = s.pins) : execAll s (is ++ offeredCc s.pins) = .next t := by
  rw [execAll_append h, ← hpins]
  exact execAll_offeredCc t

@[simp] theorem present_rst (s : State) (w : PortWord) : (s.present w).pins.rst = false := by cases w <;> rfl

theorem present_txFire (s : State) (w : PortWord) : (s.present w).txFire = false := by
  cases w <;> simp [State.txFire, State.present]

/-- The operations on the pins come to the one that was presented: the other ports are quiet, and CC's operations
run on the levels its pins already hold (log 10). -/
theorem execAll_offered_present {s : State} {w : PortWord} {i : Instr} (h : decode w = .ok i) :
    ∃ t, exec i (s.present w).beginEdge = .next t ∧
      execAll (s.present w).beginEdge (s.present w).offered = .next t := by
  cases w with
  | descriptor d =>
    cases h
    have hcmd : execAll (s.present (.descriptor d)).beginEdge [decodeDescriptor d] =
        .next (afterCommand (s.present (.descriptor d)).beginEdge) := execAll_offeredCmd _
    exact ⟨_, (execAll_singleton ..).symm.trans hcmd, execAll_append_offeredCc hcmd (afterCommand_pins _)⟩
  | rx bs =>
    have hexec := exec_of_decodeRx h (s.present (.rx bs)).beginEdge
    obtain ⟨d, _, q, _, hacc⟩ := acceptBytes_next (s.present (.rx bs)).beginEdge bs
    refine ⟨_, hexec.trans hacc, ?_⟩
    have hrx := (execAll_offeredRx (s.present (.rx bs)).beginEdge bs).trans hacc
    rw [← List.append_nil (offeredRx bs)] at hrx
    exact execAll_append_offeredCc hrx rfl
  | ccRgb r g b => cases h; exact ⟨_, rfl, rfl⟩
  | ccHex len bytes => cases h; exact ⟨_, rfl, rfl⟩

/-- Settles O48, by the port the operation is presented on. -/
theorem stepRunsPresentedOperation : Obligations.StepRunsPresentedOperation := by
  intro s w i h
  obtain ⟨t, hexec, hall⟩ := execAll_offered_present (s := s) h
  simp [step, hall, hexec, State.endEdge, present_txFire]

/-! ### Commands in E_SEND, reset values and outputs -/

/-- Settles O19: every descriptor is the acceptance of a command, which E_SEND does not grant. -/
theorem commandsWaitWhileSending : Obligations.CommandsWaitWhileSending :=
  fun s d hsend => (exec_decodeDescriptor d s).trans (acceptCommand_send hsend _)

/-- Settles O45: the reset values are written out in `DecState.reset`, `EncState.reset` and `EvPulses.none`. -/
theorem resetRegisterValues : Obligations.ResetRegisterValues := by
  intro p
  simp [DecState.reset, EvPulses.none, EncState.reset]

theorem cmdReady_iff (s : State) : s.cmdReady = true ↔ s.enc.est = .idle ∧ s.pins.rst = false := by
  simp [State.cmdReady]

theorem txValid_iff (s : State) : s.txValid = true ↔ s.enc.est = .send ∧ s.pins.rst = false := by
  simp [State.txValid]

theorem txData_of_valid {s : State} (h : s.txValid = true) : s.txData = s.enc.eq.getD s.enc.eidx 0 := by
  rw [State.txData, if_pos h]

theorem txData_of_not_valid {s : State} (h : s.txValid = false) : s.txData = 0x00 := by
  rw [State.txData, h]
  rfl

theorem fobRdata_of_lt {s : State} (h : s.pins.fobRaddr < s.dec.fobLen) :
    s.fobRdata = memRead s.dec.fob s.pins.fobRaddr := by
  rw [State.fobRdata, fobAt, if_pos h]

/-- Settles O53, port by port. -/
theorem handshakeOutputs : Obligations.HandshakeOutputs := fun s =>
  ⟨rfl, cmdReady_iff s, txValid_iff s, txData_of_valid, txData_of_not_valid, decide_eq_true_iff, decide_eq_true_iff,
    fobRdata_of_lt⟩

end Sys2Proof.Machine
end

section
/-! What an edge carries from the command pins to the wire (20_memory.md R41; 41_command_encoder.md R84, R86): the
bytes pending and queued before it are the bytes it sends and those pending after it. -/

namespace Sys2Proof.Machine

/-- An edge with `rst` = 1 (`step_cases`). -/
theorem step_of_rst {s t : State} (hrst : s.pins.rst = true) (hstep : step s = .next t) :
    t = s.resetEdge.nextCycle := by
  obtain ⟨_, hs⟩ | ⟨hr, _⟩ := step_cases s
  · cases hs.symm.trans hstep
    rfl
  · rw [hrst] at hr
    cases hr

/-- An edge with `rst` = 0 (`step_cases`): the bytes are accepted, the command is offered, the byte taken is sent. -/
theorem step_of_not_rst {s t : State} (hrst : s.pins.rst = false) (hstep : step s = .next t) :
    ∃ d q, s.beginEdge.acceptBytes s.pins.rx = .next { s.beginEdge with dec := d, pulses := q } ∧
      t = s.endEdge (afterCommand { s.beginEdge with dec := d, pulses := q }) := by
  obtain ⟨hr, _⟩ | ⟨_, d, _, q, _, hacc, hs⟩ := step_cases s
  · rw [hrst] at hr
    cases hr
  · cases hs.symm.trans hstep
    exact ⟨d, q, hacc, rfl⟩

theorem queuedBytes_of_send {s : State} (h : s.enc.est = .send) : s.queuedBytes = [] := by
  simp [State.queuedBytes, State.cmdReady, h]

theorem sentBytes_of_fire {s : State} (h : s.txFire = true) : s.sentBytes = [s.enc.eq.getD s.enc.eidx 0] := by
  have hvalid : s.txValid = true := (Bool.and_eq_true_iff.mp h).1
  rw [State.sentBytes, if_pos h, txData_of_valid hvalid]

theorem sentBytes_of_stall {s : State} (h : s.txFire = false) : s.sentBytes = [] := by
  rw [State.sentBytes, h]
  rfl

theorem endEdge_pendingBytes (s t : State) :
    (s.endEdge t).pendingBytes = if s.txFire then t.sendByte.pendingBytes else t.pendingBytes := by
  unfold State.pendingBytes
  rw [endEdge_enc]
  split <;> rfl

/-- A command is taken only in E_IDLE, where nothing is pending, so its bytes stand together (41_command_encoder.md
R84, R86). -/
theorem afterCommand_pendingBytes {s : State} (h : EncInv s.params s.enc) (hrst : s.pins.rst = false) :
    (afterCommand s).pendingBytes = s.pendingBytes ++ s.queuedBytes := by
  cases hest : s.enc.est with
  | send => rw [afterCommand_send hest, queuedBytes_of_send hest, List.append_nil]
  | idle =>
    obtain ⟨heq, _⟩ := h.idle_empty hest
    have hready : s.cmdReady = true := (cmdReady_iff s).mpr ⟨hest, hrst⟩
    cases hvalid : s.pins.cmdValid with
    | false => simp [afterCommand, State.queuedBytes, hvalid]
    | true =>
      cases hr : encEncode s.params s.pins.cmd <;>
        simp [afterCommand, State.queuedBytes, State.pendingBytes, hest, heq, hready, hvalid, hr]

/-- The byte at the index leaves; the ones behind it stay pending (41_command_encoder.md R82). -/
theorem pendingBytes_sendByte {s : State} (h : s.enc.eidx < s.enc.eq.length) :
    s.pendingBytes = s.enc.eq.getD s.enc.eidx 0 :: s.sendByte.pendingBytes := by
  have hhead : s.pendingBytes = s.enc.eq.getD s.enc.eidx 0 :: s.enc.eq.drop (s.enc.eidx + 1) := by
    rw [State.pendingBytes, List.drop_eq_getElem_cons h, List.getD_eq_getElem _ _ h]
  rw [hhead]
  obtain ⟨hlast, hs⟩ | ⟨_, hs⟩ := sendByte_cases s <;> rw [hs]
  · rw [hlast, List.drop_length]
    rfl
  · rfl

/-- An edge outside reset neither loses, adds nor reorders a byte between the command pins and the wire. -/
theorem step_carries_bytes {s t : State} (hinv : s.Inv) (hrst : s.pins.rst = false) (hstep : step s = .next t) :
    s.pendingBytes ++ s.queuedBytes = s.sentBytes ++ t.pendingBytes := by
  obtain ⟨d, q, _, rfl⟩ := step_of_not_rst hrst hstep
  have hcmd : (afterCommand { s.beginEdge with dec := d, pulses := q }).pendingBytes =
      s.pendingBytes ++ s.queuedBytes :=
    afterCommand_pendingBytes (s := { s.beginEdge with dec := d, pulses := q }) hinv.enc.beginEdge hrst
  rw [endEdge_pendingBytes, ← hcmd]
  cases hfire : s.txFire with
  | false =>
    rw [sentBytes_of_stall hfire]
    rfl
  | true =>
    have hsend : s.enc.est = .send := txFire_send hfire
    rw [sentBytes_of_fire hfire, afterCommand_send (s := { s.beginEdge with dec := d, pulses := q }) hsend]
    exact pendingBytes_sendByte (s := { s.beginEdge with dec := d, pulses := q }) (hinv.enc.send_index hsend)

/-- The next cycle's pins are those the schedule lists, in and out of reset. -/
theorem step_pins {s t : State} (h : step s = .next t) :
    t.pins = s.sched.headD Pins.idle ∧ t.sched = s.sched.tail := by
  obtain ⟨_, hs⟩ | ⟨_, _, _, _, _, _, hs⟩ := step_cases s <;> cases hs.symm.trans h
  · exact ⟨rfl, rfl⟩
  · simp

/-- A stretch without reset is, after its first cycle, a shorter one: past the schedule nothing is driven. -/
theorem pinsAhead_step {s t : State} {n : Nat} (h : step s = .next t)
    (hrst : ∀ q ∈ s.pinsAhead.take (n + 1), q.rst = false) :
    s.pins.rst = false ∧ ∀ q ∈ t.pinsAhead.take n, q.rst = false := by
  obtain ⟨hpins, hsched⟩ := step_pins h
  simp only [State.pinsAhead, List.take_succ_cons, List.forall_mem_cons] at hrst
  refine ⟨hrst.1, fun q hq => ?_⟩
  rw [State.pinsAhead, hpins, hsched] at hq
  cases hs : s.sched with
  | nil =>
    rw [hs] at hq
    obtain rfl : q = Pins.idle := List.mem_singleton.mp (List.mem_of_mem_take hq)
    rfl
  | cons p rest =>
    rw [hs] at hq hrst
    exact hrst.2 q hq

/-- Settles O24, by induction on the run: each edge carries its bytes on, and what one edge leaves pending the next
one finds. -/
theorem wireCarriesAcceptedCommandsInOrder : Obligations.WireCarriesAcceptedCommandsInOrder := by
  intro n s t queued wire evs hinv hrst hrun
  induction hrun with
  | done s => simp
  | @step n s t u queued wire evs hstep _ ih =>
    obtain ⟨hnow, hlater⟩ := pinsAhead_step hstep hrst
    have hrest := ih (stepKeepsInvariant s t hinv hstep) hlater
    calc s.pendingBytes ++ (s.queuedBytes ++ queued)
        = s.sentBytes ++ (t.pendingBytes ++ queued) := by
          rw [← List.append_assoc, step_carries_bytes hinv hnow hstep, List.append_assoc]
      _ = s.sentBytes ++ wire ++ u.pendingBytes := by rw [hrest, List.append_assoc]

end Sys2Proof.Machine
end

section
/-! What one byte stores in ACC and FOB, and what of both it leaves (20_memory.md R35; 42_frame_decoder.md R92, R93,
R95). -/

namespace Sys2Proof.Machine

section
variable {p : Config.Params} {d e : DecState} {b : Byte} {evs : List DecEvent}

/-- ACC after a byte: the byte stored at the count while there is room, and nothing otherwise. -/
theorem decStep_acc (h : decStep p d b = .ok (e, evs)) :
    e.acc = if Config.below p.bufCap (enterFrame d).cnt then memWrite d.acc (enterFrame d).cnt b else d.acc := by
  have happ : (appended d b).acc = memWrite d.acc (enterFrame d).cnt b := rfl
  have hovf : (overflowed d).acc = d.acc := enterFrame_acc d
  have hcases := decStep_cases p d b
  rw [h] at hcases
  obtain ⟨_, hroom, heq⟩ | ⟨_, hroom, heq⟩ | ⟨_, hroom, _, heq⟩ | ⟨_, hroom, heq⟩ | ⟨_, hroom, _, F, _, heq⟩ :=
    hcases <;> cases heq <;> rw [hroom]
  · exact happ
  · exact hovf
  · exact happ
  · exact hovf
  · exact (classify_acc F _).trans happ

/-- The bytes of the frame that a byte completes were in ACC before it: it is the last of the terminator. -/
theorem memPrefix_appended (hwf : Memory.wf d.acc = true) (b : Byte) :
    memPrefix (appended d b).acc ((enterFrame d).cnt - 2) = memPrefix d.acc ((enterFrame d).cnt - 2) := by
  by_cases h0 : (enterFrame d).cnt = 0
  · rw [h0]
    rfl
  · refine memPrefix_congr fun i hi => ?_
    show memRead (memWrite d.acc (enterFrame d).cnt b) i = memRead d.acc i
    rw [memRead_memWrite hwf, if_neg (by omega)]

/-- FOB after a byte: the frame in ACC when it is delivered, and as before otherwise. -/
theorem decStep_fob (hwf : Memory.wf d.acc = true) (h : decStep p d b = .ok (e, evs)) :
    ((pulsesOf evs).rd = false ∧ SameFob d e) ∨
    ((pulsesOf evs).rd = true ∧ e.fobLen = (enterFrame d).cnt - 2 ∧
      e.fob = memWriteList d.fob 0 (memPrefix d.acc ((enterFrame d).cnt - 2))) := by
  have hsame : SameFob d (enterFrame d) := ⟨enterFrame_fob d, enterFrame_fobLen d⟩
  have hcases := decStep_cases p d b
  rw [h] at hcases
  obtain ⟨_, _, heq⟩ | ⟨_, _, heq⟩ | ⟨_, _, _, heq⟩ | ⟨_, _, heq⟩ | ⟨_, _, _, F, hF, heq⟩ := hcases <;> cases heq
  · exact .inl ⟨rfl, hsame⟩
  · exact .inl ⟨rfl, hsame⟩
  · exact .inl ⟨rfl, hsame⟩
  · exact .inl ⟨rfl, hsame⟩
  · rw [memPrefix_appended hwf] at hF
    have hfob : (delivered (appended d b) F).fob = memWriteList d.fob 0 F := congrArg (memWriteList · 0 F) hsame.1
    have hlen : (delivered (appended d b) F).fobLen = (enterFrame d).cnt - 2 :=
      (congrArg List.length hF).trans (memPrefix_length ..)
    exact .inr ⟨rfl, (classify_fobLen F _).trans hlen, hF ▸ (classify_fob F _).trans hfob⟩

end

/-- Reading after the first bytes of one array were stored in another from its start. -/
theorem memRead_memWriteList_memPrefix {m : Memory} (h : Memory.wf m = true) (m' : Memory) (n i : Nat) :
    memRead (memWriteList m 0 (memPrefix m' n)) i = if i < n then memRead m' i else memRead m i := by
  rw [memRead_memWriteList h, if_pos (Nat.zero_le i), Nat.sub_zero, memPrefix_getElem?]
  split <;> rfl

/-- Settles O27, array by array. -/
theorem ingestStoresOnlyItsBytes : Obligations.IngestStoresOnlyItsBytes := by
  intro s t b hacc hfob hexec cnt0 room
  obtain ⟨e, evs, hb⟩ := decStep_isOk s.params s.dec b
  cases (acceptByte_next hb).symm.trans hexec
  have hcnt : (enterFrame s.dec).cnt = cnt0 := enterFrame_cnt s.dec
  refine ⟨fun a => ?_, ?_⟩
  · have he := decStep_acc hb
    rw [hcnt] at he
    show memRead e.acc a = _
    rw [he]
    by_cases hroom : room = true
    · rw [if_pos hroom, memRead_memWrite hacc]
      simp [hroom]
    · rw [if_neg hroom]
      simp [hroom]
  · obtain ⟨hrd, hmem, hlen⟩ | ⟨hrd, hlen, hmem⟩ := decStep_fob hacc hb
    · refine ⟨fun h => ?_, fun _ => ⟨hlen, fun a => congrArg (memRead · a) hmem⟩⟩
      rw [hrd] at h
      cases h
    · rw [hcnt] at hlen hmem
      refine ⟨fun _ => ⟨hlen, fun a => ?_⟩, fun h => ?_⟩
      · rw [hmem, memRead_memWriteList_memPrefix hfob]
      · rw [hrd] at h
        cases h

end Sys2Proof.Machine
end

section
/-! Each unit's part of an edge reads that unit's registers and pins alone (20_memory.md R42; 60_exceptions.md
R119): the units' operations give the same from states that agree on these. -/

namespace Sys2Proof.Machine

section
variable {s s' : State}

/-! ### DEC -/

theorem acceptBytes_congr {t t' : State} {bs : List Byte} (hparams : s.params = s'.params) (hdec : s.dec = s'.dec)
    (hpulses : s.pulses = s'.pulses) (h : s.acceptBytes bs = .next t) (h' : s'.acceptBytes bs = .next t') :
    t.dec = t'.dec ∧ t.pulses = t'.pulses := by
  induction bs generalizing s s' with
  | nil =>
    cases h
    cases h'
    exact ⟨hdec, hpulses⟩
  | cons b bs ih =>
    obtain ⟨d, evs, hb⟩ := decStep_isOk s.params s.dec b
    have hb' : decStep s'.params s'.dec b = .ok (d, evs) := hdec ▸ hparams ▸ hb
    rw [acceptBytes_cons (acceptByte_next hb)] at h
    rw [acceptBytes_cons (acceptByte_next hb')] at h'
    refine ih ?_ ?_ ?_ h h'
    · exact hparams
    · rfl
    · rfl

/-! ### ENC -/

theorem txFire_congr (henc : s.enc = s'.enc) (hrst : s.pins.rst = s'.pins.rst)
    (hready : s.pins.txReady = s'.pins.txReady) : s.txFire = s'.txFire := by
  simp only [State.txFire, State.txValid, henc, hrst, hready]

theorem sendByte_enc_congr (henc : s.enc = s'.enc) : s.sendByte.enc = s'.sendByte.enc := by
  simp only [State.sendByte, henc]
  split <;> rfl

theorem afterCommand_enc_congr (hparams : s.params = s'.params) (henc : s.enc = s'.enc)
    (hvalid : s.pins.cmdValid = s'.pins.cmdValid) (hcmd : s.pins.cmd = s'.pins.cmd) :
    (afterCommand s).enc = (afterCommand s').enc := by
  simp only [afterCommand, hparams, henc, hvalid, hcmd]
  split
  · cases encEncode s'.params s'.pins.cmd with
    | ok L => rfl
    | error e => simp only [State.failing, henc]
  · exact henc

end

/-- Settles O52: on a reset edge both runs load reset values; on any other, DEC takes the same bytes, and ENC takes
the same command and sends or keeps the same byte. -/
theorem decoderAndEncoderAreIndependent : Obligations.DecoderAndEncoderAreIndependent := by
  intro s s' t t' hstep hstep' hparams hrst
  cases hr : s.pins.rst with
  | true =>
    obtain rfl := step_of_rst hr hstep
    obtain rfl := step_of_rst (hrst.symm.trans hr) hstep'
    exact ⟨fun hdec _ => ⟨by simp [hdec], rfl⟩, fun _ _ _ _ => rfl⟩
  | false =>
    obtain ⟨d, q, hacc, rfl⟩ := step_of_not_rst hr hstep
    obtain ⟨d', q', hacc', rfl⟩ := step_of_not_rst (hrst.symm.trans hr) hstep'
    refine ⟨fun hdec hrx => ?_, fun henc hvalid hcmd hready => ?_⟩
    · rw [← hrx] at hacc'
      have hbytes := acceptBytes_congr (s := s.beginEdge) (s' := s'.beginEdge) hparams hdec rfl hacc hacc'
      simpa using hbytes
    · have hbegin : s.beginEdge.enc = s'.beginEdge.enc := congrArg (fun e : EncState => { e with errV := false }) henc
      have hafter : (afterCommand { s.beginEdge with dec := d, pulses := q }).enc =
          (afterCommand { s'.beginEdge with dec := d', pulses := q' }).enc :=
        afterCommand_enc_congr hparams hbegin hvalid hcmd
      rw [endEdge_enc, endEdge_enc, txFire_congr henc hrst hready, sendByte_enc_congr hafter, hafter]

end Sys2Proof.Machine
end

section
/-! What a port presents and what ENC reads of a descriptor (30_encoding.md R48, R49, R57 to R60): an operation
written onto its port reads back, and fields that an operation does not read do not matter. -/

namespace Sys2Proof.Machine

/-! ### Operations as descriptors -/

/-- The fields that a colour operand's kind selects read back as that operand (30_encoding.md R60). -/
theorem decodeColour_encodeColour (c : Colour) (d : Descriptor) : decodeColour (encodeColour c d) = c := by
  cases c <;> rfl

/-- What a descriptor reads as when it carries a colour operand. -/
theorem decodeDescriptor_encodeColour (c : Colour) (d : Descriptor) :
    (d.op = 0x4 → decodeDescriptor (encodeColour c d) = .cir d.x d.y d.r c) ∧
    (d.op = 0x5 → decodeDescriptor (encodeColour c d) = .cirs d.x d.y d.r c) ∧
    (d.op = 0x6 → decodeDescriptor (encodeColour c d) = .setBco ⟨d.compLen, d.comp⟩ c) := by
  have hfields : (encodeColour c d).op = d.op ∧ (encodeColour c d).x = d.x ∧ (encodeColour c d).y = d.y ∧
      (encodeColour c d).r = d.r ∧ (encodeColour c d).compLen = d.compLen ∧ (encodeColour c d).comp = d.comp := by
    cases c <;> exact ⟨rfl, rfl, rfl, rfl, rfl, rfl⟩
  obtain ⟨hop, hx, hy, hr, hlen, hcomp⟩ := hfields
  refine ⟨fun h => ?_, fun h => ?_, fun h => ?_⟩ <;>
    simp [decodeDescriptor, hop, h, hx, hy, hr, hlen, hcomp, decodeColour_encodeColour]

/-! ### Frames as bytes -/

/-- A frame that can arrive whole, with its terminator, reads as that frame; the empty one reads as TERM
(30_encoding.md R48; log 8). -/
theorem decodeRx_frame {F : List Byte} (h : framable F = true) :
    decodeRx (F ++ Config.ff3) = .ok (if F = [] then .term else decodeFrame F) := by
  have hlen : (F ++ Config.ff3).length - 3 = F.length := by simp [Config.ff3]
  unfold decodeRx
  split
  next h0 => simp [Config.ff3] at h0
  next h1 =>
    have hlen1 := congrArg List.length h1
    simp [Config.ff3] at hlen1
  next =>
    simp only [hlen, List.take_left', List.drop_left', h, if_true]
    split <;> rfl

theorem decodeFrame_of_otherTag {F : List Byte} (h : otherTag F = true) : decodeFrame F = .otherFrame F := by
  cases F with
  | nil => rfl
  | cons t rest =>
    simp only [otherTag, Bool.and_eq_true, decide_eq_true_eq] at h
    rw [decodeFrame, if_neg h.1, if_neg h.2]

/-- Settles O1, operation by operation: a descriptor by its `cmd_op` and, where it has one, its colour operand; a
frame by its tag. -/
theorem encodeThenDecodeGivesOperation : Obligations.EncodeThenDecodeGivesOperation := by
  intro p i hwf
  cases i with
  | sendme | page | setTxt | vis | click | raw => rfl
  | reserved9 | reservedA | reservedB | reservedC | reservedD | reservedE | reservedF => rfl
  | ingest | term | rgb565 | hex565 => rfl
  | cir x y r col => exact congrArg Except.ok ((decodeDescriptor_encodeColour col _).1 rfl)
  | cirs x y r col => exact congrArg Except.ok ((decodeDescriptor_encodeColour col _).2.1 rfl)
  | setBco comp col => exact congrArg Except.ok ((decodeDescriptor_encodeColour col _).2.2 rfl)
  | touch payload => exact decodeRx_frame hwf
  | pageChanged payload => exact decodeRx_frame hwf
  | otherFrame F =>
    obtain ⟨htag, hframe⟩ := Bool.and_eq_true_iff.mp hwf
    refine (decodeRx_frame hframe).trans ?_
    rw [decodeFrame_of_otherTag htag]
    simp only [Instr.otherFrame.injEq]

/-- Settles O2, word by word. -/
theorem writtenOutWordsDecode : Obligations.WrittenOutWordsDecode :=
  ⟨rfl, rfl, rfl, rfl, rfl, rfl, rfl, rfl, rfl⟩

/-- Settles O28: each of the four rows is its bytes accepted in order. -/
theorem frameOperationsTakeTheirWireBytes : Obligations.FrameOperationsTakeTheirWireBytes := fun s _ _ =>
  ⟨(execAll_ingest s _).symm, (execAll_ingest s _).symm, (execAll_ingest s _).symm, (execAll_ingest s _).symm⟩

/-! ### Reserved codes -/

/-- Settles O18: a reserved code offers ENC the error `IllegalOp`, which E_IDLE takes. -/
theorem reservedCodesRaiseIllegalOp : Obligations.ReservedCodesRaiseIllegalOp := by
  refine ⟨fun d h => ?_, fun s hidle i hi => ?_⟩
  · have hlt : d.op.toNat < 16 := d.op.isLt
    unfold decodeDescriptor
    generalize d.op.toNat = n at h hlt
    interval_cases n <;> simp
  · have hexec : exec i s = s.acceptCommand (.error .illegalOp) := by
      simp only [List.mem_cons, List.not_mem_nil, or_false] at hi
      rcases hi with rfl | rfl | rfl | rfl | rfl | rfl | rfl <;> rfl
    exact hexec.trans (acceptCommand_idle_error hidle .illegalOp)

/-! ### Fields that an operation does not read -/

/-- A string operand is its length and the bytes up to it (30_encoding.md R57). -/
theorem readString_congr {a b : StrArg} (hlen : a.len = b.len) (h : a.bytes.take a.len = b.bytes.take b.len)
    (max : Nat) : readString max a = readString max b := by
  simp only [readString, stringValue, hlen] at h ⊢
  rw [h]

/-- Two descriptors agree on the colour fields that their kind selects, a hex string only up to its length
(30_encoding.md R60). -/
def SameColour (d e : Descriptor) : Prop :=
  d.ckind = e.ckind ∧ (d.ckind = 0 → d.cname = e.cname) ∧ (d.ckind = 1 → d.cpacked = e.cpacked) ∧
  (d.ckind = 2 → d.cr = e.cr ∧ d.cg = e.cg ∧ d.cb = e.cb) ∧
  (d.ckind = 3 → d.chexLen = e.chexLen ∧ d.chex.take d.chexLen.toNat = e.chex.take e.chexLen.toNat)

theorem decodeColour_named {d : Descriptor} (h : d.ckind = 0) : decodeColour d = .named d.cname := by
  simp [decodeColour, h]
theorem decodeColour_packed {d : Descriptor} (h : d.ckind = 1) : decodeColour d = .packed d.cpacked := by
  simp [decodeColour, h]
theorem decodeColour_rgb {d : Descriptor} (h : d.ckind = 2) : decodeColour d = .rgb d.cr d.cg d.cb := by
  simp [decodeColour, h]
theorem decodeColour_hex {d : Descriptor} (h : d.ckind = 3) : decodeColour d = .hex d.chexLen d.chex := by
  simp [decodeColour, h]

theorem hexPort565_congr {m n : BitVec 4} {a b : List Byte} (hlen : m = n) (h : a.take m.toNat = b.take n.toNat) :
    hexPort565 m a = hexPort565 n b := by
  subst hlen
  simp only [hexPort565, h]

theorem SameColour.spellColour_eq {d e : Descriptor} (h : SameColour d e) :
    spellColour (decodeColour d) = spellColour (decodeColour e) := by
  obtain ⟨hkind, hname, hpacked, hrgb, hhex⟩ := h
  have hcases : ∀ k : BitVec 2, k = 0 ∨ k = 1 ∨ k = 2 ∨ k = 3 := by decide
  obtain hk | hk | hk | hk := hcases d.ckind
  · rw [decodeColour_named hk, decodeColour_named (hkind ▸ hk), hname hk]
  · rw [decodeColour_packed hk, decodeColour_packed (hkind ▸ hk), hpacked hk]
  · obtain ⟨hr, hg, hb⟩ := hrgb hk
    rw [decodeColour_rgb hk, decodeColour_rgb (hkind ▸ hk), hr, hg, hb]
  · obtain ⟨hlen, htake⟩ := hhex hk
    rw [decodeColour_hex hk, decodeColour_hex (hkind ▸ hk)]
    simp only [spellColour, hexPort565_congr hlen htake]

/-- Settles O3, code by code: each encoding reads its string operands through `readString` and its colour operand
through `spellColour`. -/
theorem unreadDescriptorFieldsAreIgnored : Obligations.UnreadDescriptorFieldsAreIgnored := by
  intro p d e hop hn hcomp htext hvis hcentre hcolour
  have hcompRead : d.op = 0x2 ∨ d.op = 0x3 ∨ d.op = 0x6 ∨ d.op = 0x7 →
      readString p.compMax ⟨d.compLen, d.comp⟩ = readString p.compMax ⟨e.compLen, e.comp⟩ :=
    fun h => readString_congr (hcomp h).1 (hcomp h).2 _
  have htextRead : d.op = 0x2 ∨ d.op = 0x8 →
      readString p.textMax ⟨d.textLen, d.text⟩ = readString p.textMax ⟨e.textLen, e.text⟩ :=
    fun h => readString_congr (htext h).1 (htext h).2 _
  have hspell : d.op = 0x4 ∨ d.op = 0x5 ∨ d.op = 0x6 →
      spellColour (decodeColour d) = spellColour (decodeColour e) :=
    fun h => SameColour.spellColour_eq (hcolour h)
  have hcode : ∀ k : BitVec 4, d.op.toNat = k.toNat → d.op = k := fun _ => BitVec.eq_of_toNat_eq
  unfold encEncode
  rw [← hop]
  split
  next => rfl
  next h => rw [hn (hcode 0x1 h)]
  next h =>
    have h2 := hcode 0x2 h
    simp only [encodeSetTxt, hcompRead (.inl h2), htextRead (.inl h2)]
  next h =>
    have h3 := hcode 0x3 h
    simp only [encodeVis, hcompRead (.inr (.inl h3)), hvis h3]
  next h =>
    have h4 := hcode 0x4 h
    obtain ⟨hx, hy, hr⟩ := hcentre (.inl h4)
    simp only [encodeCir, encodeCircle, hspell (.inl h4), hx, hy, hr]
  next h =>
    have h5 := hcode 0x5 h
    obtain ⟨hx, hy, hr⟩ := hcentre (.inr h5)
    simp only [encodeCirs, encodeCircle, hspell (.inr (.inl h5)), hx, hy, hr]
  next h =>
    have h6 := hcode 0x6 h
    simp only [encodeSetBco, hcompRead (.inr (.inr (.inl h6))), hspell (.inr (.inr h6))]
  next h => simp only [encodeClick, hcompRead (.inr (.inr (.inr (hcode 0x7 h))))]
  next h => simp only [encodeRaw, htextRead (.inr (hcode 0x8 h))]
  next => rfl

end Sys2Proof.Machine
end

section
/-! A frame in progress as the bytes that came since the last completion (42_frame_decoder.md R90 to R97): what DEC
holds of them, what one more byte does, and what is left once the terminator is complete. -/

namespace Sys2Proof.Machine

/-! ### Trailing 0xFF bytes -/

theorem trailingTerm_le_length (bs : List Byte) : trailingTerm bs ≤ bs.length := by
  simpa [trailingTerm] using (List.takeWhile_prefix (· == Config.termByte) (l := bs.reverse)).length_le

theorem trailingTerm_append_replicate (bs : List Byte) (n : Nat) :
    trailingTerm (bs ++ List.replicate n 0xFF) = trailingTerm bs + n := by
  induction n with
  | zero => simp
  | succ n ih =>
    rw [List.replicate_succ', ← List.append_assoc, trailingTerm_concat, ih]
    exact if_pos rfl

/-- The last three bytes are the terminator when at least three 0xFF bytes end the list. -/
theorem endsInTerm_iff (bs : List Byte) : endsInTerm bs = true ↔ 3 ≤ trailingTerm bs := by
  have hcount : ∀ rs : List Byte, rs.take 3 = Config.ff3 ↔ 3 ≤ (rs.takeWhile (· == 0xFF#8)).length := by
    intro rs
    match rs with
    | [] => simp [Config.ff3]
    | [a] => by_cases ha : a = 0xFF#8 <;> simp [Config.ff3, ha]
    | [a, b] => by_cases ha : a = 0xFF#8 <;> by_cases hb : b = 0xFF#8 <;> simp [Config.ff3, ha, hb]
    | a :: b :: c :: rest =>
      by_cases ha : a = 0xFF#8 <;> by_cases hb : b = 0xFF#8 <;> by_cases hc : c = 0xFF#8 <;>
        simp [Config.ff3, ha, hb, hc]
  rw [endsInTerm, decide_eq_true_eq]
  exact hcount bs.reverse

/-! ### How much of a frame ACC holds -/

/-- How many of `n` bytes a storage of a given capacity takes. -/
def capped (bound : Option Nat) (n : Nat) : Nat :=
  match bound with
  | none => n
  | some m => min n m

@[simp] theorem capped_zero (bound : Option Nat) : capped bound 0 = 0 := by
  cases bound <;> simp [capped]

theorem capped_of_within {bound : Option Nat} {n : Nat} (h : Config.within bound n = true) : capped bound n = n := by
  cases bound <;> simp_all [capped, Config.within]

theorem capped_of_not_within {bound : Option Nat} {n : Nat} (h : Config.within bound n = false) :
    bound = some (capped bound n) := by
  cases bound with
  | none => cases h
  | some m =>
    simp only [Config.within, decide_eq_false_iff_not] at h
    simp only [capped, Option.some.injEq]
    omega

theorem capped_succ_of_not_below {bound : Option Nat} {n : Nat} (h : Config.below bound n = false) :
    capped bound (n + 1) = capped bound n := by
  cases bound with
  | none => cases h
  | some m =>
    simp only [Config.below, decide_eq_false_iff_not] at h
    simp only [capped]
    omega

theorem below_capped (bound : Option Nat) (n : Nat) : Config.below bound (capped bound n) = Config.below bound n := by
  cases bound with
  | none => rfl
  | some m => exact decide_eq_decide.mpr (show min n m < m ↔ n < m by omega)

theorem within_capped (bound : Option Nat) (n : Nat) : Config.within bound (capped bound n) = true := by
  cases bound <;> simp [Config.within, capped]

theorem capped_le (bound : Option Nat) (n : Nat) : capped bound n ≤ n := by
  cases bound <;> simp [capped]

theorem within_succ (bound : Option Nat) (n : Nat) : Config.within bound (n + 1) = Config.below bound n := by
  cases bound <;> simp [Config.within, Config.below]

theorem lt_capped {bound : Option Nat} {n i : Nat} : i < capped bound n ↔ i < n ∧ Config.below bound i = true := by
  cases bound <;> simp [capped, Config.below]

/-- A frame fits FOB when ACC has room for it and its terminator (00_scope.md R6). -/
theorem within_frameMax_eq {p : Config.Params} (hlegal : p.legal = true) (n : Nat) :
    Config.within p.frameMax n = Config.within p.bufCap (n + 3) := by
  unfold Config.Params.frameMax
  cases hb : p.bufCap with
  | none => rfl
  | some m =>
    simp only [Config.Params.legal, hb, Bool.and_eq_true, decide_eq_true_eq] at hlegal
    simp only [Option.map_some, Config.within, decide_eq_decide]
    omega

/-- A legal ACC has room for the terminator. -/
theorem below_bufCap_of_legal {p : Config.Params} (hlegal : p.legal = true) {n : Nat} (hn : n < 7) :
    Config.below p.bufCap n = true := by
  cases hb : p.bufCap with
  | none => rfl
  | some m =>
    simp only [Config.Params.legal, hb, Bool.and_eq_true, decide_eq_true_eq] at hlegal
    simp only [Config.below, decide_eq_true_eq]
    omega

/-- `m` is `m0` after the bytes `o` were stored from index 0 on, as far as there was room. -/
structure StoredIn (bound : Option Nat) (m0 : Memory) (o : List Byte) (m : Memory) : Prop where
  wf : Memory.wf m = true
  read : ∀ a, memRead m a = if Config.below bound a then (o[a]?).getD (memRead m0 a) else memRead m0 a

section
variable {bound : Option Nat} {m0 m : Memory} {o : List Byte}

theorem storedIn_nil (h : Memory.wf m = true) : StoredIn bound m [] m := ⟨h, fun a => by simp⟩

theorem StoredIn.append (h : StoredIn bound m0 o m) (hroom : Config.below bound o.length = true) (b : Byte) :
    StoredIn bound m0 (o ++ [b]) (memWrite m o.length b) := by
  refine ⟨memWrite_wf h.wf _ _, fun a => ?_⟩
  rw [memRead_memWrite h.wf, h.read]
  by_cases ha : a = o.length
  · subst ha
    simp [hroom]
  · rw [if_neg ha]
    congr 2
    obtain hlt | hgt := Nat.lt_or_gt_of_ne ha
    · rw [List.getElem?_append_left hlt]
    · rw [List.getElem?_eq_none (by omega), List.getElem?_eq_none (by simp; omega)]

theorem StoredIn.discard (h : StoredIn bound m0 o m) (hfull : Config.below bound o.length = false) (b : Byte) :
    StoredIn bound m0 (o ++ [b]) m := by
  refine ⟨h.wf, fun a => ?_⟩
  rw [h.read]
  split
  next ha =>
    have hlt : a < o.length := by
      by_contra hge
      cases bound with
      | none => cases hfull
      | some n => simp only [Config.below, decide_eq_true_eq, decide_eq_false_iff_not] at ha hfull; omega
    rw [List.getElem?_append_left hlt]
  next => rfl

theorem StoredIn.read_of_within (h : StoredIn bound m0 o m) (hfits : Config.within bound o.length = true) (a : Nat) :
    memRead m a = (o[a]?).getD (memRead m0 a) := by
  rw [h.read]
  split
  next => rfl
  next ha =>
    have hge : ¬a < o.length := fun hlt => ha (below_of_lt hfits hlt)
    rw [List.getElem?_eq_none (by omega), Option.getD_none]

/-- What the storage holds from its start. -/
theorem StoredIn.memPrefix_eq (h : StoredIn bound m0 o m) :
    memPrefix m (capped bound o.length) = o.take (capped bound o.length) := by
  apply List.ext_getElem?
  intro i
  rw [memPrefix_getElem?, List.getElem?_take]
  split
  next hi =>
    obtain ⟨hlt, hbelow⟩ := lt_capped.mp hi
    simp [h.read, hbelow, hlt]
  next => rfl

end

/-! ### The frame in progress -/

/-- `d` is `d0` after the bytes `o`, which began a frame and did not complete it (42_frame_decoder.md R90 to R93). -/
structure InProgress (p : Config.Params) (d0 d : DecState) (o : List Byte) : Prop where
  registers : SameEventRegisters d0 d
  st : d.st = if o = [] then .idle else .recv
  run : d.run.toNat = trailingTerm o
  run_le : trailingTerm o ≤ 2
  cnt : d.cnt = capped p.bufCap o.length
  drop : d.drop = !Config.within p.bufCap o.length
  seen : d.ovfSeen = (d0.ovfSeen || !Config.within p.bufCap o.length)
  acc : StoredIn p.bufCap d0.acc o d.acc

/-- DEC once the frame `F` is complete, with `acc` in ACC: delivered and classified, or dropped for its length
(42_frame_decoder.md R95 to R97). -/
def afterFrame (p : Config.Params) (d : DecState) (acc : Memory) (F : List Byte) : DecState :=
  if Config.within p.frameMax F.length then toIdle (classify F (delivered { d with acc := acc } F)).1
  else toIdle { d with acc := acc, ovfSeen := true }

theorem toIdle_afterFrame (p : Config.Params) (d : DecState) (acc : Memory) (F : List Byte) :
    toIdle (afterFrame p d acc F) = afterFrame p d acc F := by
  unfold afterFrame
  split <;> rfl

@[simp] theorem afterFrame_acc (p : Config.Params) (d : DecState) (acc : Memory) (F : List Byte) :
    (afterFrame p d acc F).acc = acc := by
  unfold afterFrame
  split
  · rw [toIdle_acc, classify_acc]
    rfl
  · rfl

/-- The typed event that classifying emits is that of the frame's own reading. -/
theorem classify_events (F : List Byte) (d : DecState) : (classify F d).2 = typedEvents F := by
  cases F with
  | nil => rfl
  | cons t fields =>
    unfold typedEvents
    split
    next h => cases h; rfl
    next h => cases h; rfl
    next h65 h66 =>
      have ht5 : t ≠ 0x65 := fun h => h65 fields (by rw [h]; rfl)
      have ht6 : t ≠ 0x66 := fun h => h66 fields (by rw [h]; rfl)
      rw [classify, if_neg ht5, if_neg ht6]

/-- Delivery and classification look at FOB and the event registers, and leave nothing of the frame in progress. -/
theorem SameEventRegisters.toIdle_delivered {d e : DecState} (h : SameEventRegisters d e)
    (hseen : e.ovfSeen = d.ovfSeen) (F : List Byte) :
    toIdle (classify F (delivered e F)).1 = toIdle (classify F (delivered { d with acc := e.acc } F)).1 := by
  obtain ⟨_, _, _, _, _, _, rfl⟩ := h
  subst hseen
  unfold classify
  split
  · rfl
  · split
    · rfl
    · split <;> rfl

theorem SameEventRegisters.toIdle_dropped {d e : DecState} (h : SameEventRegisters d e) (hseen : e.ovfSeen = true) :
    toIdle e = toIdle { d with acc := e.acc, ovfSeen := true } := by
  obtain ⟨_, _, _, _, _, _, rfl⟩ := h
  subst hseen
  rfl

/-- Nothing has come since the last completion. -/
theorem inProgress_nil {d : DecState} (hwf : Memory.wf d.acc = true) (p : Config.Params) :
    InProgress p d (toIdle d) [] where
  registers := ⟨_, _, _, _, _, _, rfl⟩
  st := rfl
  run := rfl
  run_le := Nat.zero_le 2
  cnt := (capped_zero _).symm
  drop := by rw [List.length_nil, within_zero]; rfl
  seen := by rw [List.length_nil, within_zero]; simp
  acc := storedIn_nil hwf

section
variable {p : Config.Params} {d0 d : DecState} {o : List Byte}

theorem InProgress.accBytes_eq (h : InProgress p d0 d o) : accBytes d = o.take d.cnt := by
  rw [accBytes, h.cnt, h.acc.memPrefix_eq]

theorem InProgress.cnt_of_within (h : InProgress p d0 d o) (hfits : Config.within p.bufCap o.length = true) :
    d.cnt = o.length := h.cnt.trans (capped_of_within hfits)

/-- The registers of a frame in progress meet the invariant of 10_state.md R31. -/
theorem InProgress.frameInv (hlegal : p.legal = true) (h : InProgress p d0 d o) : FrameInv p d where
  idle_iff := by
    rw [h.st, h.cnt]
    cases o with
    | nil => simp
    | cons b bs =>
      have hpos : 0 < capped p.bufCap (b :: bs).length :=
        lt_capped.mpr ⟨Nat.zero_lt_succ _, below_bufCap_of_legal hlegal (by omega)⟩
      simp only [List.cons_ne_nil, if_false, reduceCtorEq, false_iff]
      omega
  idle_run hidle := by
    cases o with
    | nil => exact ⟨BitVec.eq_of_toNat_eq h.run, by rw [h.drop, List.length_nil, within_zero]; rfl⟩
    | cons b bs => cases h.st.symm.trans hidle
  run_le := h.run ▸ h.run_le
  run_trailing hd := by
    have hfits : Config.within p.bufCap o.length = true := by simpa [h.drop] using hd
    rw [h.accBytes_eq, h.cnt_of_within hfits, List.take_length, h.run]
  cnt_le := h.cnt ▸ within_capped _ _
  drop_full hd := by
    rw [h.cnt]
    exact capped_of_not_within (by simpa [h.drop] using hd)

theorem InProgress.room_eq (h : InProgress p d0 d o) :
    Config.below p.bufCap d.cnt = Config.below p.bufCap o.length := by
  rw [h.cnt, below_capped]

/-- A byte completes the frame when it is the third 0xFF in a row (42_frame_decoder.md R91, R94). -/
theorem InProgress.countTerm_eq_three (h : InProgress p d0 d o) (b : Byte) :
    countTerm d.run b = 3 ↔ trailingTerm (o ++ [b]) = 3 := by
  have hrun : d.run = 2 ↔ trailingTerm o = 2 := by
    rw [← h.run]
    exact ⟨fun h2 => by rw [h2]; rfl, fun h2 => BitVec.eq_of_toNat_eq h2⟩
  rw [Machine.countTerm_eq_three, hrun, trailingTerm_concat]
  split
  next hb => exact ⟨fun ⟨h2, _⟩ => by rw [h2], fun h3 => ⟨by omega, hb⟩⟩
  next hb => exact ⟨fun ⟨_, hb'⟩ => (hb hb').elim, nofun⟩

/-- One more byte that does not complete the frame: it is stored, or discarded for want of room
(42_frame_decoder.md R92, R93). -/
theorem InProgress.next (hlegal : p.legal = true) (h : InProgress p d0 d o) {b : Byte}
    (hgo : trailingTerm (o ++ [b]) ≤ 2) :
    ∃ e, decStep p d b = .ok (e, []) ∧ InProgress p d0 e (o ++ [b]) := by
  have hinv := h.frameInv hlegal
  have h3 : countTerm d.run b ≠ 3 := fun hc => by
    rw [(h.countTerm_eq_three b).mp hc] at hgo
    omega
  have hrun : (countTerm d.run b).toNat = trailingTerm (o ++ [b]) := by
    rw [(countTerm_toNat hinv.run_le h3).1, trailingTerm_concat, h.run]
  have hlen : (o ++ [b]).length = o.length + 1 := List.length_append
  have hcases := decStep_cases p d b
  simp only [hinv.enterFrame_eq, hinv.appended_eq, hinv.overflowed_eq, h.room_eq] at hcases
  obtain ⟨_, hroom, heq⟩ | ⟨_, hroom, heq⟩ | ⟨hc, _⟩ | ⟨hc, _⟩ | ⟨hc, _⟩ := hcases
  · have hfits : Config.within p.bufCap o.length = true := within_of_le (below_le hroom) (Nat.le_succ _)
    have hcnt : d.cnt = o.length := h.cnt_of_within hfits
    have hnext : Config.within p.bufCap (o ++ [b]).length = true := hlen ▸ below_le hroom
    exact ⟨_, heq,
      { registers := h.registers.update ..
        st := by simp
        run := hrun
        run_le := hgo
        cnt := by rw [capped_of_within hnext, hlen, ← hcnt]
        drop := by rw [hnext]; exact h.drop.trans (by rw [hfits])
        seen := by rw [hnext]; exact h.seen.trans (by rw [hfits])
        acc := hcnt ▸ h.acc.append hroom b }⟩
  · have hnext : Config.within p.bufCap (o ++ [b]).length = false := by rw [hlen, within_succ, hroom]
    exact ⟨_, heq,
      { registers := h.registers.update ..
        st := by simp
        run := hrun
        run_le := hgo
        cnt := by rw [hlen, capped_succ_of_not_below hroom]; exact h.cnt
        drop := by rw [hnext]; rfl
        seen := by rw [hnext]; simp
        acc := h.acc.discard hroom b }⟩
  · exact (h3 hc).elim
  · exact (h3 hc).elim
  · exact (h3 hc).elim

/-- The byte that completes the frame, which is what came before the terminator: delivered within `FRAME_MAX`, and
otherwise dropped (42_frame_decoder.md R94, R95, R97). -/
theorem InProgress.complete (hlegal : p.legal = true) (h : InProgress p d0 d o) {b : Byte}
    (hterm : trailingTerm (o ++ [b]) = 3) :
    ∃ acc, decStep p d b =
        .ok (afterFrame p d0 acc (o.take (o.length - 2)), frameEvents p (o.take (o.length - 2))) ∧
      StoredIn p.bufCap d0.acc (o ++ [b]) acc := by
  have hinv := h.frameInv hlegal
  have h3 : countTerm d.run b = 3 := (h.countTerm_eq_three b).mpr hterm
  have hlen : 3 ≤ o.length + 1 := by
    have hle := trailingTerm_le_length (o ++ [b])
    rwa [hterm, List.length_append] at hle
  have hfits : Config.within p.frameMax (o.take (o.length - 2)).length = Config.below p.bufCap o.length := by
    rw [within_frameMax_eq hlegal, ← within_succ, List.length_take]
    congr 1
    omega
  have hcases := decStep_cases p d b
  rw [memPrefix_appended h.acc.wf] at hcases
  simp only [hinv.enterFrame_eq, hinv.appended_eq, hinv.overflowed_eq, h.room_eq] at hcases
  have hreg := h.registers.update
  obtain ⟨hc, _⟩ | ⟨hc, _⟩ | ⟨_, hroom, hd, _⟩ | ⟨_, hroom, heq⟩ | ⟨_, hroom, _, F, hF, heq⟩ := hcases
  · exact (hc h3).elim
  · exact (hc h3).elim
  · rw [h.drop, within_of_le (below_le hroom) (Nat.le_succ _)] at hd
    cases hd
  · refine ⟨_, ?_, h.acc.discard hroom b⟩
    rw [heq, (hreg .recv d.run d.acc d.cnt true true).toIdle_dropped rfl, afterFrame, frameEvents, hfits, hroom]
    rfl
  · have hroom' : Config.within p.bufCap o.length = true := within_of_le (below_le hroom) (Nat.le_succ _)
    have hcnt : d.cnt = o.length := h.cnt_of_within hroom'
    have hseen : d.ovfSeen = d0.ovfSeen := by rw [h.seen, hroom']; simp
    have hread : F = o.take (o.length - 2) := by
      have hacc : memPrefix d.acc d.cnt = o := by rw [← accBytes, h.accBytes_eq, hcnt, List.take_length]
      rw [hF, ← Nat.min_eq_left (Nat.sub_le d.cnt 2), ← memPrefix_take, hacc, hcnt]
    refine ⟨_, ?_, hcnt ▸ h.acc.append hroom b⟩
    rw [heq, (hreg .recv d.run _ _ d.drop d.ovfSeen).toIdle_delivered hseen F, afterFrame, frameEvents, hfits,
      if_pos hroom, if_pos hroom, classify_events, ← hread]

end
end Sys2Proof.Machine
end

section
/-! Whole streams: bytes that complete nothing, frames that arrive whole, and the reading of any stream as frames
(30_encoding.md R48, R52; 42_frame_decoder.md R88, R89, R106). -/

namespace Sys2Proof.Machine

section
variable {p : Config.Params} {d0 d : DecState} {o : List Byte}

/-- Bytes without a third 0xFF in a row extend the frame in progress. -/
theorem InProgress.ingest (hlegal : p.legal = true) (h : InProgress p d0 d o) {bs : List Byte}
    (hbs : noTermFrom (trailingTerm o) bs = true) :
    ∃ e, decIngest p d bs = .ok (e, []) ∧ InProgress p d0 e (o ++ bs) := by
  induction bs generalizing d o with
  | nil => exact ⟨d, rfl, by simpa using h⟩
  | cons b bs ih =>
    have hnext : trailingTerm (o ++ [b]) ≤ 2 ∧ noTermFrom (trailingTerm (o ++ [b])) bs = true := by
      simp only [noTermFrom] at hbs
      rw [trailingTerm_concat]
      split at hbs
      next hb =>
        simp only [Bool.and_eq_true, decide_eq_true_eq] at hbs
        rw [if_pos hb]
        exact ⟨hbs.1, hbs.2⟩
      next hb =>
        rw [if_neg hb]
        exact ⟨Nat.zero_le 2, hbs⟩
    obtain ⟨d1, h1, hd1⟩ := h.next hlegal hnext.1
    obtain ⟨e, h2, he⟩ := ih hd1 hnext.2
    exact ⟨e, decIngest_cons h1 h2, by simpa using he⟩

/-- A byte stream is read on from any point of a frame, up to the bytes after the last completion. -/
theorem InProgress.reads (hlegal : p.legal = true) (h : InProgress p d0 d o) (bs : List Byte) :
    ∃ e0 e, decIngest p d bs = .ok (e, (cutFrames o bs).1.flatMap (frameEvents p)) ∧
      InProgress p e0 e (cutFrames o bs).2 := by
  induction bs generalizing d0 d o with
  | nil => exact ⟨d0, d, rfl, h⟩
  | cons b bs ih =>
    unfold cutFrames
    have hle : trailingTerm (o ++ [b]) ≤ 3 := by
      have := h.run_le
      rw [trailingTerm_concat]
      split <;> omega
    split
    next hterm =>
      have h3 : trailingTerm (o ++ [b]) = 3 := Nat.le_antisymm hle ((endsInTerm_iff _).mp hterm)
      have hframe : (o ++ [b]).take (o.length - 2) = o.take (o.length - 2) := List.take_append_of_le_length (by omega)
      obtain ⟨acc, hstep, hacc⟩ := h.complete hlegal h3
      have hnew := inProgress_nil (d := afterFrame p d0 acc (o.take (o.length - 2)))
        ((afterFrame_acc ..).symm ▸ hacc.wf) p
      rw [toIdle_afterFrame] at hnew
      obtain ⟨e0, e, hrest, he⟩ := ih hnew
      refine ⟨e0, e, ?_, he⟩
      rw [decIngest_cons hstep hrest, hframe, List.flatMap_cons]
    next hterm =>
      have hgo : trailingTerm (o ++ [b]) ≤ 2 := by
        have hne : trailingTerm (o ++ [b]) ≠ 3 := fun h3 => hterm ((endsInTerm_iff _).mpr h3.ge)
        omega
      obtain ⟨d1, hstep, hd1⟩ := h.next hlegal hgo
      obtain ⟨e0, e, hrest, he⟩ := ih hd1
      exact ⟨e0, e, decIngest_cons hstep hrest, he⟩

end

/-- Settles O34: reset is the beginning of a first frame, and every stream is read on from there. -/
theorem decoderRefinesFrameReading : Obligations.DecoderRefinesFrameReading := by
  intro p bs hlegal frames rest
  have hreset : InProgress p DecState.reset DecState.reset [] := inProgress_nil (d := DecState.reset) rfl p
  obtain ⟨e0, e, hread, he⟩ := hreset.reads hlegal bs
  refine ⟨e, hread, ?_, he.run, he.drop, he.accBytes_eq, ?_⟩
  · rw [he.st]
    split
    next hnil => exact ⟨fun _ => hnil, fun _ => rfl⟩
    next hne => exact ⟨nofun, fun hnil => (hne hnil).elim⟩
  · cases hfits : Config.within p.bufCap rest.length with
    | true => exact .inl (he.cnt_of_within hfits)
    | false => exact .inr ⟨he.cnt ▸ capped_of_not_within hfits, he.cnt ▸ capped_le _ _⟩

/-! ### Frames that arrive whole -/

/-- The first byte after IDLE begins a frame, whatever the buffer's registers hold (42_frame_decoder.md R90). -/
theorem decIngest_toIdle {d : DecState} (hidle : d.st = .idle) (p : Config.Params) {bs : List Byte} (hbs : bs ≠ []) :
    decIngest p (toIdle d) bs = decIngest p d bs := by
  have henter : enterFrame (toIdle d) = enterFrame d := by simp [enterFrame, hidle, toIdle]
  cases bs with
  | nil => exact (hbs rfl).elim
  | cons b bs => simp only [decIngest, decStep, henter]

/-- A frame that can arrive whole, from IDLE: nothing is complete before the third 0xFF of its terminator, which
completes the frame. -/
theorem decIngest_framable {p : Config.Params} {d : DecState} (hlegal : p.legal = true)
    (hwf : Memory.wf d.acc = true) (hidle : d.st = .idle) {F : List Byte} (hframe : framable F = true) :
    ∃ e acc, decIngest p d (F ++ [0xFF, 0xFF]) = .ok (e, []) ∧
      decStep p e 0xFF = .ok (afterFrame p d acc F, frameEvents p F) ∧
      StoredIn p.bufCap d.acc (F ++ [0xFF, 0xFF, 0xFF]) acc := by
  obtain ⟨e, hbody, he⟩ := (inProgress_nil hwf p).ingest hlegal hframe
  rw [List.nil_append] at he
  have hbytes : F ++ [Config.termByte, Config.termByte] = F ++ List.replicate 2 0xFF := rfl
  have hterm : trailingTerm (F ++ [Config.termByte, Config.termByte] ++ [0xFF]) = 3 := by
    have hrun := he.run_le
    have hnext : trailingTerm (F ++ List.replicate 3 0xFF) = trailingTerm F + 3 := trailingTerm_append_replicate F 3
    rw [hbytes, trailingTerm_append_replicate] at hrun
    rw [List.append_assoc]
    exact hnext.trans (by omega)
  obtain ⟨acc, hstep, hacc⟩ := he.complete hlegal hterm
  rw [decIngest_toIdle hidle p (by simp)] at hbody
  refine ⟨e, acc, hbody, ?_, ?_⟩
  · simpa using hstep
  · simpa [Config.termByte] using hacc

/-- A framable frame and its terminator give the frame's events and leave DEC idle (42_frame_decoder.md R96). -/
theorem decIngest_frame {p : Config.Params} {d : DecState} (hlegal : p.legal = true) (hwf : Memory.wf d.acc = true)
    (hidle : d.st = .idle) {F : List Byte} (hframe : framable F = true) :
    ∃ acc, decIngest p d (F ++ [0xFF, 0xFF, 0xFF]) = .ok (afterFrame p d acc F, frameEvents p F) ∧
      StoredIn p.bufCap d.acc (F ++ [0xFF, 0xFF, 0xFF]) acc := by
  obtain ⟨e, acc, hbody, hstep, hacc⟩ := decIngest_framable hlegal hwf hidle hframe
  refine ⟨acc, ?_, hacc⟩
  have hlast := decIngest_append hbody (decIngest_cons hstep (decIngest_nil p _))
  simpa using hlast

/-- Settles O35, by induction on the frames. -/
theorem streamOfFramesGivesTheirEvents : Obligations.StreamOfFramesGivesTheirEvents := by
  intro p d frames hlegal hwf hidle hframes
  induction frames generalizing d with
  | nil => exact ⟨d, rfl, hidle, fun h => (h rfl).elim⟩
  | cons F frames ih =>
    obtain ⟨hF, hrest⟩ := List.forall_mem_cons.mp hframes
    obtain ⟨acc, hframe, hacc⟩ := decIngest_frame hlegal hwf hidle hF
    have hdone : afterFrame p d acc F = toIdle (afterFrame p d acc F) := (toIdle_afterFrame ..).symm
    obtain ⟨e, hstream, hst, hregs⟩ := ih (afterFrame p d acc F) ((afterFrame_acc ..).symm ▸ hacc.wf)
      (congrArg DecState.st hdone) hrest
    refine ⟨e, ?_, hst, fun _ => ?_⟩
    · rw [List.flatMap_cons, List.flatMap_cons]
      exact decIngest_append hframe hstream
    · cases frames with
      | nil =>
        cases hstream
        exact ⟨congrArg DecState.cnt hdone, congrArg DecState.run hdone, congrArg DecState.drop hdone⟩
      | cons F' rest => exact hregs (List.cons_ne_nil _ _)

/-! ### The pulses of a chunk with one completion -/

/-- Bytes that emit nothing leave no pulse. -/
theorem acceptBytes_quiet {s : State} {bs : List Byte} {e : DecState}
    (h : decIngest s.params s.dec bs = .ok (e, [])) :
    s.acceptBytes bs = .next { s with dec := e, pulses := if bs = [] then s.pulses else EvPulses.none } := by
  cases bs using List.reverseRecOn with
  | nil => cases h; rfl
  | append_singleton bs b =>
    obtain ⟨d, d', first, last, -, -, hall, hacc⟩ := acceptBytes_concat s bs b
    rw [h] at hall
    simp only [Except.ok.injEq, Prod.mk.injEq, List.nil_eq_append_iff] at hall
    obtain ⟨rfl, -, rfl⟩ := hall
    rw [hacc, if_neg (by simp)]
    rfl

/-- A chunk in which one byte emits events: its pulses are those events' when no byte follows, and none otherwise
(42_frame_decoder.md R104; log 6). -/
theorem acceptBytes_completion {s : State} {A B : List Byte} {b : Byte} {d1 d2 d3 : DecState} {evs : List DecEvent}
    (hA : decIngest s.params s.dec A = .ok (d1, [])) (hb : decStep s.params d1 b = .ok (d2, evs))
    (hB : decIngest s.params d2 B = .ok (d3, [])) :
    s.acceptBytes (A ++ b :: B) =
      .next { s with dec := d3, pulses := if B = [] then pulsesOf evs else EvPulses.none } := by
  rw [acceptBytes_append (acceptBytes_quiet hA), acceptBytes_cons (acceptByte_next hb)]
  exact acceptBytes_quiet hB

/-! ### The operations of frames, from IDLE -/

/-- Reading the array in which a list was stored from its start. -/
theorem memRead_storedList {m : Memory} (h : Memory.wf m = true) (F : List Byte) (a : Nat) :
    memRead (memWriteList m 0 F) a = if h : a < F.length then F[a] else memRead m a := by
  rw [memRead_memWriteList h, if_pos (Nat.zero_le a), Nat.sub_zero]
  split
  next ha => rw [List.getElem?_eq_getElem ha, Option.getD_some]
  next ha => rw [List.getElem?_eq_none (by omega), Option.getD_none]

/-- A framable frame within `FRAME_MAX`, from IDLE, is delivered: its bytes are in ACC and FOB, its events are the
pulses, and the rest of the machine is as before (42_frame_decoder.md R92, R95). -/
theorem acceptBytes_delivered {s : State} {F : List Byte} (hlegal : s.params.legal = true)
    (hacc : Memory.wf s.dec.acc = true) (hfob : Memory.wf s.dec.fob = true) (hidle : s.dec.st = .idle)
    (hframe : framable F = true) (hfits : Config.within s.params.frameMax F.length = true) :
    ∃ acc fob,
      s.acceptBytes (F ++ Config.ff3) = .next { s with
        dec := toIdle (classify F { s.dec with
          acc := acc, fob := fob, fobLen := F.length, fobGen := s.dec.fobGen + 1 }).1
        pulses := pulsesOf (.receivedData F :: typedEvents F) } ∧
      (∀ a, memRead fob a = if h : a < F.length then F[a] else memRead s.dec.fob a) ∧
      ∀ a, memRead acc a = ((F ++ [0xFF, 0xFF, 0xFF])[a]?).getD (memRead s.dec.acc a) := by
  obtain ⟨e, acc, hbody, hstep, hstored⟩ := decIngest_framable hlegal hacc hidle hframe
  refine ⟨acc, memWriteList s.dec.fob 0 F, ?_, memRead_storedList hfob F, hstored.read_of_within ?_⟩
  · have hall := acceptBytes_completion hbody hstep (decIngest_nil s.params _)
    rw [List.append_assoc] at hall
    refine hall.trans ?_
    rw [afterFrame, frameEvents, if_pos hfits, if_pos hfits, if_pos rfl]
    rfl
  · rw [← hfits, within_frameMax_eq hlegal]
    simp

/-- `tp_fv` by the number of fields (42_frame_decoder.md R99). -/
theorem touchPresent_of_length (fields : List Byte) :
    touchPresent fields[0]? fields[1]? fields[2]? =
      if fields.length = 0 then 0b000 else if fields.length = 1 then 0b001
      else if fields.length = 2 then 0b011 else 0b111 := by
  match fields with
  | [] | [_] | [_, _] => simp [touchPresent]
  | _ :: _ :: _ :: rest => simp [touchPresent]

/-- Settles O30: the delivery of a frame that is classified as a touch. -/
theorem touchFrameArrives : Obligations.TouchFrameArrives := by
  intro s payload hlegal hacc hfob hidle hframe hfits
  obtain ⟨acc, fob, hexec, hfobRead, haccRead⟩ := acceptBytes_delivered hlegal hacc hfob hidle hframe hfits
  refine ⟨_, hexec, ?_, hfobRead, haccRead, rfl, rfl, rfl, rfl, rfl⟩
  rw [← touchPresent_of_length payload]
  rfl

/-- Settles O31: the delivery of a frame that is classified as a page change. -/
theorem pageFrameArrives : Obligations.PageFrameArrives := by
  intro s payload hlegal hacc hfob hidle hframe hfits
  obtain ⟨acc, fob, hexec, hfobRead, haccRead⟩ := acceptBytes_delivered hlegal hacc hfob hidle hframe hfits
  refine ⟨_, hexec, ?_, hfobRead, haccRead, rfl, rfl, rfl, rfl, rfl⟩
  cases payload with
  | nil => rfl
  | cons page rest => rfl

/-- A frame under no known tag is not classified (42_frame_decoder.md R101). -/
theorem classify_of_other {F : List Byte} (h65 : F.head? ≠ some 0x65) (h66 : F.head? ≠ some 0x66) (d : DecState) :
    classify F d = (d, []) := by
  cases F with
  | nil => rfl
  | cons t rest =>
    rw [classify, if_neg fun h => h65 (congrArg some h), if_neg fun h => h66 (congrArg some h)]

/-- Settles O32: the delivery of a frame that is not classified. -/
theorem otherFrameArrives : Obligations.OtherFrameArrives := by
  intro s F hlegal hacc hfob hidle hframe h65 h66 hfits
  obtain ⟨acc, fob, hexec, hfobRead, haccRead⟩ := acceptBytes_delivered hlegal hacc hfob hidle hframe hfits
  rw [← classify_events F s.dec, classify_of_other h65 h66, classify_of_other h65 h66] at hexec
  exact ⟨_, hexec, rfl, hfobRead, haccRead, rfl, rfl, rfl, rfl, rfl⟩

end Sys2Proof.Machine
end

section
/-! The terminator from any frame in progress (30_encoding.md R47; 42_frame_decoder.md R91 to R97): it completes the
frame with its first bytes, and the rest of it begins the next one. -/

namespace Sys2Proof.Machine

/-! ### A frame in progress that the invariant describes -/

/-- Bytes that a dropped frame may have lost: ACC shows none of them, and the run counter the 0xFF bytes that end
them (42_frame_decoder.md R93). -/
def lostBytes (d : DecState) : List Byte := if d.drop then 0x00 :: List.replicate d.run.toNat 0xFF else []

/-- The bytes of the frame in progress: those in ACC, and in their place those that were lost. -/
def openFrame (d : DecState) : List Byte := accBytes d ++ lostBytes d

/-- A dropped frame has set `ovf_seen` (10_state.md R16). -/
def withDropSeen (d : DecState) : DecState := { d with ovfSeen := d.ovfSeen || d.drop }

theorem withDropSeen_kept {d : DecState} (h : d.drop = false) : withDropSeen d = d :=
  congrArg (fun seen => { d with ovfSeen := seen }) (show (d.ovfSeen || d.drop) = d.ovfSeen by rw [h, Bool.or_false])

theorem accBytes_length (d : DecState) : (accBytes d).length = d.cnt := memPrefix_length _ _

theorem openFrame_kept {d : DecState} (h : d.drop = false) : openFrame d = accBytes d := by
  simp [openFrame, lostBytes, h]

theorem openFrame_dropped_length {d : DecState} (h : d.drop = true) :
    (openFrame d).length = d.cnt + 1 + d.run.toNat := by
  simp only [openFrame, lostBytes, h, if_true, List.length_append, List.length_cons, List.length_replicate,
    accBytes_length]
  omega

/-- Where ACC holds the frame in progress, that is what it reads. -/
theorem openFrame_getElem? {d : DecState} {a : Nat} (ha : a < d.cnt) (more : List Byte) :
    (openFrame d ++ more)[a]? = some (memRead d.acc a) := by
  rw [openFrame, List.append_assoc, List.getElem?_append_left (by rwa [accBytes_length]), accBytes,
    memPrefix_getElem?, if_pos ha]

section
variable {p : Config.Params} {d : DecState}

theorem FrameInv.trailingTerm_openFrame (h : FrameInv p d) : trailingTerm (openFrame d) = d.run.toNat := by
  cases hd : d.drop with
  | false => rw [openFrame_kept hd, h.run_trailing hd]
  | true =>
    have hsplit : openFrame d = accBytes d ++ [0x00] ++ List.replicate d.run.toNat 0xFF := by
      simp [openFrame, lostBytes, hd]
    rw [hsplit, trailingTerm_append_replicate, trailingTerm_concat, if_neg (by decide), Nat.zero_add]

/-- ACC has room for the whole frame in progress unless it is being dropped. -/
theorem FrameInv.within_openFrame (h : FrameInv p d) :
    Config.within p.bufCap (openFrame d).length = !d.drop := by
  cases hd : d.drop with
  | false =>
    rw [openFrame_kept hd, accBytes_length]
    exact h.cnt_le
  | true =>
    rw [h.drop_full hd, openFrame_dropped_length hd]
    simp only [Config.within, Bool.not_true, decide_eq_false_iff_not]
    omega

theorem FrameInv.capped_openFrame (h : FrameInv p d) : capped p.bufCap (openFrame d).length = d.cnt := by
  cases hd : d.drop with
  | false =>
    rw [openFrame_kept hd, accBytes_length]
    exact capped_of_within h.cnt_le
  | true =>
    rw [h.drop_full hd, openFrame_dropped_length hd]
    simp only [capped]
    omega

/-- The frame in progress that the invariant describes is one in the sense of `InProgress`. -/
theorem FrameInv.inProgress (h : FrameInv p d) (hwf : Memory.wf d.acc = true) :
    InProgress p (withDropSeen d) (withDropSeen d) (openFrame d) where
  registers := ⟨_, _, _, _, _, _, rfl⟩
  st := by
    show d.st = _
    cases hst : d.st with
    | idle =>
      have hnil : accBytes d = [] := by rw [accBytes, h.idle_iff.mp hst]; rfl
      rw [openFrame_kept (h.idle_run hst).2, if_pos hnil]
    | recv =>
      have hne : openFrame d ≠ [] := fun hnil => by
        have hzero : d.cnt = 0 := by
          have hlen := congrArg List.length hnil
          simp only [openFrame, List.length_append, accBytes_length, List.length_nil] at hlen
          omega
        cases hst.symm.trans (h.idle_iff.mpr hzero)
      rw [if_neg hne]
  run := h.trailingTerm_openFrame.symm
  run_le := h.trailingTerm_openFrame ▸ h.run_le
  cnt := h.capped_openFrame.symm
  drop := by rw [h.within_openFrame, Bool.not_not]; rfl
  seen := by rw [h.within_openFrame]; simp [withDropSeen]
  acc := by
    refine ⟨hwf, fun a => ?_⟩
    show memRead d.acc a = if _ then ((openFrame d)[a]?).getD (memRead d.acc a) else memRead d.acc a
    by_cases ha : a < d.cnt
    · have hread := openFrame_getElem? ha []
      rw [List.append_nil] at hread
      rw [hread, Option.getD_some, ite_self]
    · split
      next hroom =>
        have hlen : ¬a < (openFrame d).length := fun hlt => ha (h.capped_openFrame ▸ lt_capped.mpr ⟨hlt, hroom⟩)
        rw [List.getElem?_eq_none (by omega), Option.getD_none]
      next => rfl

/-- The next byte of a dropped frame is lost too, so it sets `ovf_seen` if it is not set yet. -/
theorem FrameInv.decStep_withDropSeen (h : FrameInv p d) (b : Byte) : decStep p (withDropSeen d) b = decStep p d b := by
  cases hd : d.drop with
  | false => rw [withDropSeen_kept hd]
  | true =>
    have hst : d.st = .recv := by
      cases hst : d.st with
      | recv => rfl
      | idle => cases hd.symm.trans (h.idle_run hst).2
    have hfull : Config.below p.bufCap d.cnt = false := by rw [h.drop_full hd, not_below_self]
    have henter : enterFrame d = d ∧ enterFrame (withDropSeen d) = withDropSeen d := by
      simp [enterFrame, withDropSeen, hst]
    have hfull' : Config.below p.bufCap (withDropSeen d).cnt = false := hfull
    simp only [decStep, henter, accumulate_full hfull, accumulate_full hfull']
    rfl

end

/-! ### The bytes of the terminator -/

theorem noTermFrom_replicate {r n : Nat} (h : r + n ≤ 2) : noTermFrom r (List.replicate n 0xFF) = true := by
  induction n generalizing r with
  | zero => rfl
  | succ n ih =>
    have hlt : r < 2 := by omega
    simpa [List.replicate_succ, noTermFrom, Config.termByte, hlt] using ih (r := r + 1) (by omega)

/-- The terminator in three parts, when `r` bytes 0xFF stand before it: those that go before the third in a row, that
byte, and those that go after. -/
theorem ff3_split {r : Nat} (h : r ≤ 2) :
    Config.ff3 = List.replicate (2 - r) 0xFF ++ 0xFF :: List.replicate r 0xFF := by
  interval_cases r <;> rfl

section
variable {p : Config.Params} {d0 d : DecState} {o : List Byte}

/-- The registers of a frame in progress that ACC has room for. -/
theorem InProgress.eq_of_within (h : InProgress p d0 d o) (hfits : Config.within p.bufCap o.length = true) :
    d = { d0 with
      st := if o = [] then .idle else .recv
      run := BitVec.ofNat 2 (trailingTerm o), acc := d.acc, cnt := o.length, drop := false } := by
  have hst := h.st
  have hcnt := h.cnt_of_within hfits
  have hrun : d.run = BitVec.ofNat 2 (trailingTerm o) := by rw [← h.run, BitVec.ofNat_toNat, BitVec.setWidth_eq]
  have hdrop := h.drop
  have hseen := h.seen
  rw [hfits] at hdrop hseen
  simp only [Bool.not_true, Bool.or_false] at hdrop hseen
  obtain ⟨st, run, acc, cnt, drop, seen, rfl⟩ := h.registers
  obtain rfl : st = _ := hst
  obtain rfl : run = _ := hrun
  obtain rfl : cnt = _ := hcnt
  obtain rfl : drop = _ := hdrop
  obtain rfl : seen = _ := hseen
  rfl

/-- The terminator after a frame in progress: the frame less the 0xFF bytes that already counted is complete, and as
many bytes are left over. -/
theorem InProgress.terminator (hlegal : p.legal = true) (h : InProgress p d0 d o) :
    ∃ d1 e0 e acc,
      e0 = afterFrame p d0 acc (o.take (o.length - trailingTerm o)) ∧
      decIngest p d (List.replicate (2 - trailingTerm o) 0xFF) = .ok (d1, []) ∧
      decStep p d1 0xFF = .ok (e0, frameEvents p (o.take (o.length - trailingTerm o))) ∧
      decIngest p e0 (List.replicate (trailingTerm o) 0xFF) = .ok (e, []) ∧
      StoredIn p.bufCap d0.acc (o ++ List.replicate (3 - trailingTerm o) 0xFF) acc ∧
      InProgress p e0 e (List.replicate (trailingTerm o) 0xFF) := by
  have hrun := h.run_le
  have hle := trailingTerm_le_length o
  obtain ⟨d1, hbefore, hd1⟩ := h.ingest hlegal (noTermFrom_replicate (n := 2 - trailingTerm o) (by omega))
  have hbytes : o ++ List.replicate (2 - trailingTerm o) 0xFF ++ [0xFF] =
      o ++ List.replicate (3 - trailingTerm o) 0xFF := by
    rw [List.append_assoc, ← List.replicate_succ', show 3 - trailingTerm o = 2 - trailingTerm o + 1 by omega]
  have hterm : trailingTerm (o ++ List.replicate (2 - trailingTerm o) 0xFF ++ [0xFF]) = 3 := by
    rw [hbytes, trailingTerm_append_replicate]
    omega
  have hframe : (o ++ List.replicate (2 - trailingTerm o) 0xFF).take
      ((o ++ List.replicate (2 - trailingTerm o) 0xFF).length - 2) = o.take (o.length - trailingTerm o) := by
    rw [List.length_append, List.length_replicate, List.take_append_of_le_length (by omega)]
    congr 1
    omega
  obtain ⟨acc, hstep, hacc⟩ := hd1.complete hlegal hterm
  rw [hframe] at hstep
  rw [hbytes] at hacc
  have hnew := inProgress_nil (d := afterFrame p d0 acc (o.take (o.length - trailingTerm o)))
    ((afterFrame_acc ..).symm ▸ hacc.wf) p
  rw [toIdle_afterFrame] at hnew
  obtain ⟨e, hafter, he⟩ := hnew.ingest hlegal
    (noTermFrom_replicate (n := trailingTerm o) ((Nat.zero_add _).trans_le hrun))
  exact ⟨d1, _, e, acc, rfl, hbefore, hstep, hafter, hacc, he⟩

end

/-! ### TERM -/

/-- What ACC reads once the terminator was stored behind the frame in progress, as far as there was room. -/
theorem FrameInv.memRead_terminated {p : Config.Params} {d : DecState} {acc : Memory} (h : FrameInv p d)
    (hacc : StoredIn p.bufCap d.acc (openFrame d ++ List.replicate (3 - d.run.toNat) 0xFF) acc) (a : Nat) :
    memRead acc a =
      if d.cnt ≤ a ∧ a < d.cnt - d.run.toNat + 3 ∧ Config.below p.bufCap a = true then 0xFF
      else memRead d.acc a := by
  rw [hacc.read]
  by_cases ha : a < d.cnt
  · rw [openFrame_getElem? ha, Option.getD_some, ite_self, if_neg (by omega)]
  · cases hroom : Config.below p.bufCap a with
    | false => simp
    | true =>
      have hkept : d.drop = false := by
        cases hd : d.drop with
        | false => rfl
        | true =>
          rw [h.drop_full hd] at hroom
          simp only [Config.below, decide_eq_true_eq] at hroom
          exact (ha hroom).elim
      have hrun : d.run.toNat ≤ d.cnt := by
        rw [h.run_trailing hkept, ← accBytes_length]
        exact trailingTerm_le_length _
      have hle := h.run_le
      rw [if_pos rfl, openFrame_kept hkept, List.getElem?_append_right (by rw [accBytes_length]; omega),
        accBytes_length, List.getElem?_replicate]
      by_cases hend : a < d.cnt - d.run.toNat + 3
      · rw [if_pos (by omega), if_pos ⟨by omega, hend, rfl⟩, Option.getD_some]
      · rw [if_neg (by omega), if_neg fun hc => hend hc.2.1, Option.getD_none]

/-- TERM from any frame in progress: what the completion leaves, with the left-over 0xFF bytes as the next frame. -/
theorem exec_term {s : State} (hlegal : s.params.legal = true) (hinv : FrameInv s.params s.dec)
    (hwf : Memory.wf s.dec.acc = true) {F : List Byte}
    (hF : F = (openFrame s.dec).take ((openFrame s.dec).length - s.dec.run.toNat)) :
    ∃ acc acc1,
      exec .term s = .next { s with
        dec := { afterFrame s.params (withDropSeen s.dec) acc1 F with
          st := if s.dec.run.toNat = 0 then .idle else .recv
          run := s.dec.run, acc := acc, cnt := s.dec.run.toNat, drop := false }
        pulses := if s.dec.run.toNat = 0 then pulsesOf (frameEvents s.params F) else EvPulses.none } ∧
      ∀ a, memRead acc a =
        if a < s.dec.run.toNat ∨ (s.dec.cnt ≤ a ∧ a < s.dec.cnt - s.dec.run.toNat + 3 ∧
          Config.below s.params.bufCap a = true) then 0xFF
        else memRead s.dec.acc a := by
  have hrun := hinv.trailingTerm_openFrame
  obtain ⟨d1, e0, e, acc1, he0, hbefore, hstep, hafter, hacc, he⟩ := (hinv.inProgress hwf).terminator hlegal
  rw [hrun, ← hF] at he0
  rw [hrun] at hbefore hstep hafter hacc he
  rw [← hF] at hstep
  have hfits : Config.within s.params.bufCap (List.replicate s.dec.run.toNat (0xFF : Byte)).length = true := by
    have hroom := below_le (below_bufCap_of_legal hlegal (n := 2) (by omega))
    exact within_of_le hroom (by rw [List.length_replicate]; exact Nat.le_succ_of_le hinv.run_le)
  have hregs := he.eq_of_within hfits
  have htrailing : trailingTerm (List.replicate s.dec.run.toNat 0xFF) = s.dec.run.toNat := by
    simpa [trailingTerm] using trailingTerm_append_replicate [] s.dec.run.toNat
  rw [htrailing, BitVec.ofNat_toNat, BitVec.setWidth_eq, List.length_replicate] at hregs
  simp only [List.replicate_eq_nil_iff] at hregs
  refine ⟨e.acc, acc1, ?_, fun a => ?_⟩
  · have hchunk := acceptBytes_completion (s := { s with dec := withDropSeen s.dec }) hbefore hstep hafter
    rw [← ff3_split hinv.run_le] at hchunk
    simp only [List.replicate_eq_nil_iff] at hchunk
    have hsame : exec .term s = ({ s with dec := withDropSeen s.dec } : State).acceptBytes Config.ff3 := by
      show s.acceptBytes Config.ff3 = _
      simp only [Config.ff3, State.acceptBytes, State.acceptByte, hinv.decStep_withDropSeen]
    rw [hsame, hchunk, hregs, he0]
  · rw [he.acc.read_of_within hfits, he0, afterFrame_acc, hinv.memRead_terminated hacc, List.getElem?_replicate]
    by_cases ha : a < s.dec.run.toNat
    · simp [ha]
    · simp [ha]

/-- A frame is classified by its tag, which is one of two or neither (42_frame_decoder.md R98, R101). -/
theorem classify_by_tag (F : List Byte) (d : DecState) :
    (F.head? = some 0x65 ∧ F.head? ≠ some 0x66 ∧ classify F d = classifyTouch F d) ∨
    (F.head? ≠ some 0x65 ∧ F.head? = some 0x66 ∧ classify F d = classifyPage F d) ∨
    (F.head? ≠ some 0x65 ∧ F.head? ≠ some 0x66 ∧ classify F d = (d, [])) := by
  by_cases h65 : F.head? = some 0x65
  · obtain ⟨rest, rfl⟩ := List.head?_eq_some_iff.mp h65
    exact .inl ⟨rfl, by simp, rfl⟩
  · by_cases h66 : F.head? = some 0x66
    · obtain ⟨rest, rfl⟩ := List.head?_eq_some_iff.mp h66
      exact .inr (.inl ⟨h65, rfl, rfl⟩)
    · exact .inr (.inr ⟨h65, h66, classify_of_other h65 h66 d⟩)

/-- What classifying a frame makes of the typed registers (42_frame_decoder.md R99, R100). -/
theorem classify_registers (F : List Byte) (d : DecState) {isTouch isPage : Bool}
    (htouch : isTouch = decide (F.head? = some 0x65)) (hpage : isPage = decide (F.head? = some 0x66)) :
    (classify F d).1 = { d with
      tpPage := if isTouch then F[1]?.getD 0 else d.tpPage
      tpId := if isTouch then F[2]?.getD 0 else d.tpId
      tpState := if isTouch then F[3]?.getD 0 else d.tpState
      tpFv := if isTouch then touchPresent F[1]? F[2]? F[3]? else d.tpFv
      pgPage := if isPage then F[1]?.getD 0 else d.pgPage
      pgFv := if isPage then F[1]?.isSome else d.pgFv
      curPage := if isPage then F[1]?.getD d.curPage else d.curPage
      curPageV := (isPage && F[1]?.isSome) || d.curPageV } := by
  obtain ⟨h65, h66, hc⟩ | ⟨h65, h66, hc⟩ | ⟨h65, h66, hc⟩ := classify_by_tag F d <;>
    rw [htouch, hpage, hc]
  · rw [decide_eq_true h65, decide_eq_false h66]; rfl
  · rw [decide_eq_false h65, decide_eq_true h66]; rfl
  · rw [decide_eq_false h65, decide_eq_false h66]; rfl

/-- The pulses of a delivered frame (42_frame_decoder.md R104). -/
theorem pulsesOf_delivered (F : List Byte) :
    pulsesOf (.receivedData F :: typedEvents F) =
      { rd := true, touch := decide (F.head? = some 0x65), page := decide (F.head? = some 0x66), drop := false } := by
  rw [← classify_events F DecState.reset]
  obtain ⟨h65, h66, hc⟩ | ⟨h65, h66, hc⟩ | ⟨h65, h66, hc⟩ := classify_by_tag F DecState.reset <;> rw [hc]
  · rw [decide_eq_true h65, decide_eq_false h66]; rfl
  · rw [decide_eq_false h65, decide_eq_true h66]; rfl
  · rw [decide_eq_false h65, decide_eq_false h66]; rfl

/-- Settles O29: the completion that the terminator brings delivers or drops the frame, and the bytes left over are
the next frame in progress. -/
theorem terminatorEndsTheFrame : Obligations.TerminatorEndsTheFrame := by
  intro s hlegal hinv hacc hfob r F isTouch isPage
  refine ⟨fun hkept hfits => ?_, fun hlost => ?_⟩
  · have hF : F = (openFrame s.dec).take ((openFrame s.dec).length - s.dec.run.toNat) := by
      rw [openFrame_kept hkept, accBytes_length, accBytes, memPrefix_take, Nat.min_eq_left (Nat.sub_le _ _)]
    have hlen : F.length = s.dec.cnt - r := memPrefix_length _ _
    have hFfits : Config.within s.params.frameMax F.length = true := by rw [hlen, hfits]
    obtain ⟨acc, acc1, hexec, hread⟩ := exec_term hlegal hinv hacc hF
    rw [afterFrame, if_pos hFfits, withDropSeen_kept hkept, frameEvents, if_pos hFfits, pulsesOf_delivered,
      classify_registers F _ (isTouch := isTouch) (isPage := isPage) rfl rfl] at hexec
    refine ⟨_, hexec, ?_, memRead_storedList hfob F, fun a => (hread a).trans ?_, rfl, rfl, rfl, rfl, rfl⟩
    · rw [← hlen]
      rfl
    · have hroom : a < s.dec.cnt - r + 3 → Config.below s.params.bufCap a = true :=
        below_of_lt (within_frameMax_eq hlegal _ ▸ hfits)
      congr 1
      exact propext (or_congr_right ⟨fun ⟨h1, h2, _⟩ => ⟨h1, h2⟩, fun ⟨h1, h2⟩ => ⟨h1, h2, hroom h2⟩⟩)
  · obtain ⟨acc, acc1, hexec, hread⟩ := exec_term hlegal hinv hacc rfl
    have hlong : Config.within s.params.frameMax
        ((openFrame s.dec).take ((openFrame s.dec).length - s.dec.run.toNat)).length = false := by
      rw [List.length_take, Nat.min_eq_left (Nat.sub_le _ _)]
      cases hd : s.dec.drop with
      | false =>
        rw [openFrame_kept hd, accBytes_length]
        simpa [hd] using hlost
      | true =>
        rw [openFrame_dropped_length hd, within_frameMax_eq hlegal, hinv.drop_full hd]
        simp only [Config.within, decide_eq_false_iff_not]
        omega
    rw [afterFrame, frameEvents, hlong] at hexec
    exact ⟨_, hexec, rfl, hread, rfl, rfl, rfl, rfl, rfl⟩

end Sys2Proof.Machine
end

section
/-! The colour codec (40_color_codec.md R64 to R67): what a packed colour weighs, what a hex colour string spells, and
what the ports of CC show of both in the cycle that presents them (10_state.md R29). -/

namespace Sys2Proof.Machine

/-! ### Packing -/

theorem toNat_append_eq_mul_add {m n : Nat} (x : BitVec m) (y : BitVec n) :
    (x ++ y).toNat = x.toNat * 2 ^ n + y.toNat := by
  rw [BitVec.toNat_append, ← Nat.shiftLeft_add_eq_or_of_lt y.isLt, Nat.shiftLeft_eq]

theorem toNat_topBits {w k n : Nat} (x : BitVec w) (h : w = k + n) :
    (x.extractLsb' k n).toNat = x.toNat / 2 ^ k := by
  have hlt : x.toNat < 2 ^ k * 2 ^ n := by rw [← Nat.pow_add, ← h]; exact x.isLt
  rw [BitVec.extractLsb'_toNat, Nat.shiftRight_eq_div_pow, Nat.mod_eq_of_lt (Nat.div_lt_of_lt_mul hlt)]

theorem ccRgb565_toNat (r g b : Byte) :
    (ccRgb565 r g b).toNat = r.toNat / 8 * 2048 + g.toNat / 4 * 32 + b.toNat / 8 := by
  have hr : (r.extractLsb' 3 5).toNat = r.toNat / 8 := toNat_topBits r rfl
  have hg : (g.extractLsb' 2 6).toNat = g.toNat / 4 := toNat_topBits g rfl
  have hb : (b.extractLsb' 3 5).toNat = b.toNat / 8 := toNat_topBits b rfl
  rw [ccRgb565, toNat_append_eq_mul_add, toNat_append_eq_mul_add, hr, hg, hb]
  omega

/-- Settles O4. -/
theorem rgbPacksTopBits : Obligations.RgbPacksTopBits := ccRgb565_toNat

/-! ### Hex digits and hex bytes -/

theorem sub_ofNat_eq_ofNat {c : Byte} {k : Nat} (h : k ≤ c.toNat) :
    c - BitVec.ofNat 8 k = BitVec.ofNat 8 (c.toNat - k) := by
  rw [← BitVec.ofNat_sub_ofNat_of_le c.toNat k (Nat.lt_of_le_of_lt h c.isLt) h, BitVec.ofNat_toNat,
    BitVec.setWidth_eq]

/-- The value of a letter digit, whose range starts at ten. -/
theorem sub_ofNat_add_ten_eq_ofNat {c : Byte} {k : Nat} (h : k ≤ c.toNat) :
    c - BitVec.ofNat 8 k + 10 = BitVec.ofNat 8 (c.toNat - k + 10) := by
  rw [sub_ofNat_eq_ofNat h, BitVec.ofNat_add]
  rfl

/-- Settles O5, one range of digit bytes after the other (40_color_codec.md R66). -/
theorem hexDigitValues : Obligations.HexDigitValues := by
  intro c
  simp only [hexval, BitVec.le_def]
  refine ite_congr rfl (fun ⟨hlow, _⟩ => ?_) fun _ => ite_congr rfl (fun ⟨hlow, _⟩ => ?_) fun _ =>
    ite_congr rfl (fun ⟨hlow, _⟩ => ?_) fun _ => rfl
  · exact congrArg some (sub_ofNat_eq_ofNat hlow)
  · exact congrArg some (sub_ofNat_add_ten_eq_ofNat hlow)
  · exact congrArg some (sub_ofNat_add_ten_eq_ofNat hlow)

theorem hexByte_eq_some_iff {hi lo v : Byte} :
    hexByte hi lo = some v ↔ ∃ x1 x0, hexval hi = some x1 ∧ hexval lo = some x0 ∧ v = 16 * x1 + x0 := by
  cases hhi : hexval hi with
  | none => simp [hexByte, hhi]
  | some x1 =>
    cases hlo : hexval lo with
    | none => simp [hexByte, hhi, hlo]
    | some x0 => simp [hexByte, hhi, hlo, eq_comm]

/-! ### Hex colour strings -/

/-- The one form of a hex colour string that succeeds (40_color_codec.md R65). -/
theorem ccHex565_eq_ok_iff {s : List Byte} {v : Half} :
    ccHex565 s = .ok v ↔
      ∃ r1 r0 g1 g0 b1 b0 r g b, s = [0x23, r1, r0, g1, g0, b1, b0] ∧
        hexByte r1 r0 = some r ∧ hexByte g1 g0 = some g ∧ hexByte b1 b0 = some b ∧ v = ccRgb565 r g b := by
  constructor
  · intro hok
    unfold ccHex565 at hok
    split at hok
    next h r1 r0 g1 g0 b1 b0 =>
      split at hok
      next hhash =>
        split at hok
        next r g b hr hg hb =>
          exact ⟨r1, r0, g1, g0, b1, b0, r, g, b, by rw [hhash], hr, hg, hb, (Except.ok.inj hok).symm⟩
        next => cases hok
      next => cases hok
    next => cases hok
  · rintro ⟨r1, r0, g1, g0, b1, b0, r, g, b, rfl, hr, hg, hb, rfl⟩
    simp only [ccHex565, if_pos, hr, hg, hb]

theorem ccHex565_error {s : List Byte} {e : EncError} (h : ccHex565 s = .error e) : e = .invalidColorFormat := by
  unfold ccHex565 at h
  split at h
  next =>
    split at h
    next =>
      split at h
      next => cases h
      next => exact (Except.error.inj h).symm
    next => exact (Except.error.inj h).symm
  next => exact (Except.error.inj h).symm

/-! ### The hex port -/

theorem hexPort565_of_gt {len : BitVec 4} (h : 8 < len.toNat) (bytes : List Byte) :
    hexPort565 len bytes = .error .invalidColorFormat := if_pos h

theorem hexPort565_of_le {len : BitVec 4} (h : len.toNat ≤ 8) (bytes : List Byte) :
    hexPort565 len bytes = ccHex565 (bytes.take len.toNat) := if_neg (Nat.not_lt.mpr h)

theorem hexOutputs_of_ok {s : State} {v : Half} (h : hexPort565 s.pins.ccHexLen s.pins.ccHex = .ok v) :
    s.ccHexErr = false ∧ s.ccHex565Out = v := by
  simp only [State.ccHexErr, State.ccHex565Out, h, and_self]

theorem hexOutputs_of_error {s : State} {e : EncError} (h : hexPort565 s.pins.ccHexLen s.pins.ccHex = .error e) :
    s.ccHexErr = true ∧ s.ccHex565Out = 0x0000 := by
  simp only [State.ccHexErr, State.ccHex565Out, h, and_self]

/-- Settles O6: the strings that succeed, digit by digit, the only error, the bound of the port and what the port
shows. -/
theorem hexColourParsesExactly : Obligations.HexColourParsesExactly := by
  refine ⟨fun s v => ?_, fun _ _ => ccHex565_error, fun _ _ => rfl,
    fun _ => ⟨fun _ => hexOutputs_of_ok, fun _ => hexOutputs_of_error⟩⟩
  simp only [ccHex565_eq_ok_iff, hexByte_eq_some_iff]
  constructor
  · rintro ⟨r1, r0, g1, g0, b1, b0, _, _, _, hs, ⟨x1, x0, hx1, hx0, rfl⟩, ⟨y1, y0, hy1, hy0, rfl⟩,
      ⟨z1, z0, hz1, hz0, rfl⟩, hv⟩
    exact ⟨r1, r0, g1, g0, b1, b0, x1, x0, y1, y0, z1, z0, hs, hx1, hx0, hy1, hy0, hz1, hz0, hv⟩
  · rintro ⟨r1, r0, g1, g0, b1, b0, x1, x0, y1, y0, z1, z0, hs, hx1, hx0, hy1, hy0, hz1, hz0, hv⟩
    exact ⟨r1, r0, g1, g0, b1, b0, _, _, _, hs, ⟨x1, x0, hx1, hx0, rfl⟩, ⟨y1, y0, hy1, hy0, rfl⟩,
      ⟨z1, z0, hz1, hz0, rfl⟩, hv⟩

/-! ### The operations -/

/-- Settles O7: the operation drives the pins whose colour the port packs. -/
theorem rgbOperationShowsColour : Obligations.RgbOperationShowsColour :=
  fun r g b _ => ⟨_, rfl, ccRgb565_toNat r g b, rfl⟩

/-- Settles O8: the operation drives the pins that the hex port reads, so its result is the port's for that length. -/
theorem hexOperationShowsColourOrError : Obligations.HexOperationShowsColourOrError := fun _ bytes _ =>
  ⟨_, rfl, rfl, fun hlong => hexOutputs_of_error (hexPort565_of_gt hlong bytes),
    fun hfits _ hok => hexOutputs_of_ok ((hexPort565_of_le hfits bytes).trans hok),
    fun hfits _ herr => hexOutputs_of_error ((hexPort565_of_le hfits bytes).trans herr)⟩

end Sys2Proof.Machine
end

section
/-! What ENC spells (41_command_encoder.md R70, R71): decimal digits, whose value is the number spelled, and the
colour operand of each kind. -/

namespace Sys2Proof.Machine

/-! ### Decimal digits -/

theorem digit_toNat {k : Nat} (h : k < 10) : (digit k).toNat = 0x30 + k := by
  rw [digit, BitVec.toNat_ofNat, Nat.mod_eq_of_lt (by omega)]

theorem decDigits_of_lt {v : Nat} (h : v < 10) (fuel : Nat) : decDigits (fuel + 1) v = [digit v] := if_pos h

theorem decDigits_of_ge {v : Nat} (h : 10 ≤ v) (fuel : Nat) :
    decDigits (fuel + 1) v = decDigits fuel (v / 10) ++ [digit (v % 10)] := if_neg (Nat.not_lt.mpr h)

theorem decDigits_ne_nil (fuel v : Nat) : decDigits (fuel + 1) v ≠ [] := by
  obtain h | h := Nat.lt_or_ge v 10
  · simp [decDigits_of_lt h]
  · simp [decDigits_of_ge h]

theorem decDigits_mem {fuel v : Nat} {c : Byte} (hc : c ∈ decDigits fuel v) : ∃ k < 10, c = digit k := by
  induction fuel generalizing v with
  | zero => cases hc
  | succ fuel ih =>
    obtain h | h := Nat.lt_or_ge v 10
    · rw [decDigits_of_lt h] at hc
      exact ⟨v, h, List.mem_singleton.mp hc⟩
    · rw [decDigits_of_ge h, List.mem_append, List.mem_singleton] at hc
      exact hc.elim ih fun hlast => ⟨v % 10, Nat.mod_lt v (by decide), hlast⟩

theorem div_ten_lt {fuel v : Nat} (h : v < 10 ^ (fuel + 1)) : v / 10 < 10 ^ fuel :=
  Nat.div_lt_of_lt_mul (by rwa [Nat.mul_comm, ← Nat.pow_succ])

/-- The number that a list of digit bytes spells, most significant first. -/
def decimalValue (ds : List Byte) : Nat := ds.foldl (fun acc c => 10 * acc + (c.toNat - 0x30)) 0

theorem decimalValue_concat_digit (ds : List Byte) {k : Nat} (h : k < 10) :
    decimalValue (ds ++ [digit k]) = 10 * decimalValue ds + k := by
  rw [decimalValue, List.foldl_append, List.foldl_cons, List.foldl_nil, digit_toNat h, Nat.add_sub_cancel_left]
  rfl

theorem decimalValue_decDigits {fuel v : Nat} (h : v < 10 ^ fuel) : decimalValue (decDigits fuel v) = v := by
  induction fuel generalizing v with
  | zero => exact (Nat.lt_one_iff.mp h).symm
  | succ fuel ih =>
    obtain hv | hv := Nat.lt_or_ge v 10
    · rw [decDigits_of_lt hv]
      exact (decimalValue_concat_digit [] hv).trans (Nat.zero_add v)
    · have hdiv : v / 10 < 10 ^ fuel := div_ten_lt h
      rw [decDigits_of_ge hv, decimalValue_concat_digit _ (Nat.mod_lt v (by decide)), ih hdiv]
      exact Nat.div_add_mod v 10

/-- No leading zero: the first digit of a positive number is the first digit of its tenth part, or the number
itself. -/
theorem decDigits_head_ne_zero {fuel v : Nat} (hpos : 0 < v) (h : v < 10 ^ fuel) :
    (decDigits fuel v).head? ≠ some 0x30 := by
  induction fuel generalizing v with
  | zero => simp [decDigits]
  | succ fuel ih =>
    obtain hv | hv := Nat.lt_or_ge v 10
    · rw [decDigits_of_lt hv]
      intro hhead
      have hnat : (digit v).toNat = 0x30 := congrArg BitVec.toNat (Option.some.inj hhead)
      rw [digit_toNat hv] at hnat
      omega
    · have hdiv : v / 10 < 10 ^ fuel := div_ten_lt h
      have htenth : 0 < v / 10 := Nat.div_pos hv (by decide)
      rw [decDigits_of_ge hv]
      cases fuel with
      | zero => omega
      | succ fuel =>
        rw [List.head?_append_of_ne_nil _ (decDigits_ne_nil fuel (v / 10))]
        exact ih htenth hdiv

/-- Settles O9: five digits are enough for a 16-bit value, and only zero starts with the digit 0. -/
theorem decimalSpellingIsExact : Obligations.DecimalSpellingIsExact := by
  intro v
  have hfits : v.toNat < 10 ^ 5 := v.isLt.trans (by decide)
  refine ⟨List.length_pos_iff.mpr (decDigits_ne_nil 4 v.toNat), decSpelling_length v, fun c hc => ?_,
    decimalValue_decDigits hfits, fun hhead => ?_⟩
  · obtain ⟨k, hk, rfl⟩ := decDigits_mem hc
    rw [digit_toNat hk]
    omega
  · obtain hzero | hpos := Nat.eq_zero_or_pos v.toNat
    · rw [decSpelling, hzero]
      rfl
    · exact absurd hhead (decDigits_head_ne_zero hpos hfits)

/-! ### Colour operands -/

theorem spellColour_hex_ok {len : BitVec 4} {bytes : List Byte} {v : Half} (h : hexPort565 len bytes = .ok v) :
    spellColour (.hex len bytes) = .ok (decSpelling v) := by
  simp only [spellColour, h]

theorem spellColour_hex_error {len : BitVec 4} {bytes : List Byte} {e : EncError}
    (h : hexPort565 len bytes = .error e) : spellColour (.hex len bytes) = .error e := by
  simp only [spellColour, h]

theorem hexPort565_error {len : BitVec 4} {bytes : List Byte} {e : EncError} (h : hexPort565 len bytes = .error e) :
    e = .invalidColorFormat := by
  obtain hlen | hlen := Nat.lt_or_ge 8 len.toNat
  · rw [hexPort565_of_gt hlen] at h
    exact (Except.error.inj h).symm
  · rw [hexPort565_of_le hlen] at h
    exact ccHex565_error h

/-- Only a hex colour can be in error, and only in its format (41_command_encoder.md R71; 60_exceptions.md R108). -/
theorem spellColour_error {col : Colour} {e : EncError} (h : spellColour col = .error e) : e = .invalidColorFormat := by
  cases col with
  | named | packed | rgb => cases h
  | hex len bytes =>
    cases hport : hexPort565 len bytes with
    | ok v =>
      rw [spellColour_hex_ok hport] at h
      cases h
    | error e' =>
      rw [spellColour_hex_error hport] at h
      cases h
      exact hexPort565_error hport

/-- Settles O10, kind by kind; a hex colour is spelled as its port reads it. -/
theorem colourOperandSpelling : Obligations.ColourOperandSpelling :=
  ⟨fun _ => ⟨decodeColour_named, decodeColour_packed, decodeColour_rgb, decodeColour_hex⟩,
    rfl, rfl, rfl, rfl, rfl, rfl, rfl, rfl, fun _ => rfl, fun _ _ _ => rfl,
    fun _ bytes hlong => spellColour_hex_error (hexPort565_of_gt hlong bytes),
    fun _ bytes hfits =>
      ⟨fun _ hok => spellColour_hex_ok ((hexPort565_of_le hfits bytes).trans hok),
        fun _ herr => spellColour_hex_error
          ((hexPort565_of_le hfits bytes).trans (ccHex565_error herr ▸ herr))⟩⟩

end Sys2Proof.Machine
end

section
/-! The commands (41_command_encoder.md R72 to R81): the bytes or the error of each, and what E_IDLE makes of them. -/

namespace Sys2Proof.Machine

/-! ### A command taken in E_IDLE -/

theorem exec_queues {i : Instr} {s : State} {r : Except EncError (List Byte)} {L : List Byte}
    (hidle : s.enc.est = .idle) (hexec : exec i s = s.acceptCommand r) (hr : r = .ok L) :
    exec i s = .next (s.sending L) := by
  rw [hexec, hr, acceptCommand_idle_ok hidle]

theorem exec_raises {i : Instr} {s : State} {r : Except EncError (List Byte)} {e : EncError}
    (hidle : s.enc.est = .idle) (hexec : exec i s = s.acceptCommand r) (hr : r = .error e) :
    exec i s = .next (s.failing e.code) := by
  rw [hexec, hr, acceptCommand_idle_error hidle]

/-- Settles O20: `exec_decodeDescriptor`, and the outcomes of `acceptCommand` in E_IDLE. -/
theorem acceptanceFollowsEncEncode : Obligations.AcceptanceFollowsEncEncode := by
  intro s d hidle
  have hexec := exec_decodeDescriptor d s
  cases hr : encEncode s.params d with
  | ok L => exact exec_queues hidle hexec hr
  | error e => cases e <;> exact exec_raises hidle hexec hr

/-- Settles O21: a queueable list holds at least its terminator. -/
theorem encodedListsEndInTerminatorAndFit : Obligations.EncodedListsEndInTerminatorAndFit := by
  intro p d L h
  obtain ⟨⟨body, rfl⟩, hfits⟩ := encEncode_queueable h
  refine ⟨?_, ⟨body, rfl⟩, hfits⟩
  rw [List.length_append, ff3_length]
  exact Nat.le_add_left 3 body.length

/-! ### The encodings, case by case -/

section
variable {p : Config.Params} {comp text : StrArg}

theorem encodeSetTxt_ok (hcomp : comp.len ≤ p.compMax) (htext : text.len ≤ p.textMax) :
    encodeSetTxt p comp text = .ok (comp.bytes.take comp.len ++ [0x2E, 0x74, 0x78, 0x74, 0x3D, 0x22] ++
      text.bytes.take text.len ++ [0x22] ++ Config.ff3) := by
  simp only [encodeSetTxt, readString_ok hcomp, readString_ok htext]

theorem encodeSetTxt_error (h : p.compMax < comp.len ∨ p.textMax < text.len) :
    encodeSetTxt p comp text = .error .illegalOp := by
  obtain hcomp | hcomp := Nat.lt_or_ge p.compMax comp.len
  · simp only [encodeSetTxt, readString_error hcomp]
  · have htext : p.textMax < text.len := h.resolve_left (Nat.not_lt.mpr hcomp)
    simp only [encodeSetTxt, readString_ok hcomp, readString_error htext]

theorem encodeVis_ok (h : comp.len ≤ p.compMax) (visible : Bool) :
    encodeVis p comp visible = .ok ([0x76, 0x69, 0x73, 0x20] ++ comp.bytes.take comp.len ++ comma ++
      [boolSpelling visible] ++ Config.ff3) := by
  simp only [encodeVis, readString_ok h]

theorem encodeVis_error (h : p.compMax < comp.len) (visible : Bool) :
    encodeVis p comp visible = .error .illegalOp := by
  simp only [encodeVis, readString_error h]

theorem encodeCircle_ok {col : Colour} {k : List Byte} (h : spellColour col = .ok k) (word : List Byte)
    (x y r : Half) :
    encodeCircle word x y r col = .ok (word ++ decSpelling x ++ comma ++ decSpelling y ++ comma ++ decSpelling r ++
      comma ++ k ++ Config.ff3) := by
  simp only [encodeCircle, h]

theorem encodeCircle_error {col : Colour} {e : EncError} (h : spellColour col = .error e) (word : List Byte)
    (x y r : Half) : encodeCircle word x y r col = .error .invalidColorFormat := by
  simp only [encodeCircle, h, spellColour_error h]

theorem encodeSetBco_ok {col : Colour} {k : List Byte} (hcomp : comp.len ≤ p.compMax) (hcol : spellColour col = .ok k) :
    encodeSetBco p comp col = .ok (comp.bytes.take comp.len ++ [0x2E, 0x62, 0x63, 0x6F, 0x3D] ++ k ++ Config.ff3 ++
      [0x72, 0x65, 0x66, 0x20] ++ comp.bytes.take comp.len ++ Config.ff3) := by
  simp only [encodeSetBco, readString_ok hcomp, hcol]

theorem encodeSetBco_colour_error {col : Colour} {e : EncError} (hcomp : comp.len ≤ p.compMax)
    (hcol : spellColour col = .error e) : encodeSetBco p comp col = .error .invalidColorFormat := by
  simp only [encodeSetBco, readString_ok hcomp, hcol, spellColour_error hcol]

theorem encodeSetBco_comp_error (h : p.compMax < comp.len) (col : Colour) :
    encodeSetBco p comp col = .error .illegalOp := by
  simp only [encodeSetBco, readString_error h]

theorem encodeClick_ok (h : comp.len ≤ p.compMax) :
    encodeClick p comp = .ok ([0x63, 0x6C, 0x69, 0x63, 0x6B, 0x20] ++ comp.bytes.take comp.len ++ [0x2C, 0x31] ++
      Config.ff3 ++ [0x63, 0x6C, 0x69, 0x63, 0x6B, 0x20] ++ comp.bytes.take comp.len ++ [0x2C, 0x30] ++
      Config.ff3) := by
  simp only [encodeClick, readString_ok h]

theorem encodeClick_error (h : p.compMax < comp.len) : encodeClick p comp = .error .illegalOp := by
  simp only [encodeClick, readString_error h]

theorem encodeRaw_ok (h : text.len ≤ p.textMax) :
    encodeRaw p text = .ok (text.bytes.take text.len ++ Config.ff3) := by
  simp only [encodeRaw, readString_ok h]

theorem encodeRaw_error (h : p.textMax < text.len) : encodeRaw p text = .error .illegalOp := by
  simp only [encodeRaw, readString_error h]

end

/-! ### The operations -/

/-- Settles O11. -/
theorem sendmeAndPageQueueTheirText : Obligations.SendmeAndPageQueueTheirText :=
  ⟨fun _ => ⟨fun hop => by simp [decodeDescriptor, hop], fun hop => by simp [decodeDescriptor, hop]⟩,
    fun _ hidle => ⟨exec_queues hidle rfl rfl, fun _ => exec_queues hidle rfl rfl⟩⟩

/-- Settles O12. -/
theorem setTxtQueuesQuotedText : Obligations.SetTxtQueuesQuotedText :=
  ⟨fun _ hop => by simp [decodeDescriptor, hop], fun _ _ _ hidle =>
    ⟨fun hcomp htext => exec_queues hidle rfl (encodeSetTxt_ok hcomp htext),
      fun hlong => exec_raises hidle rfl (encodeSetTxt_error hlong)⟩⟩

/-- Settles O13. -/
theorem visQueuesVisibility : Obligations.VisQueuesVisibility :=
  ⟨fun _ hop => by simp [decodeDescriptor, hop], fun _ _ v hidle =>
    ⟨fun hcomp => exec_queues hidle rfl (encodeVis_ok hcomp v),
      fun hlong => exec_raises hidle rfl (encodeVis_error hlong v)⟩⟩

/-- Settles O14: CIR and CIRS are one encoding after two command words. -/
theorem circlesQueueCentreRadiusColour : Obligations.CirclesQueueCentreRadiusColour :=
  ⟨fun _ => ⟨fun hop => by simp [decodeDescriptor, hop], fun hop => by simp [decodeDescriptor, hop]⟩,
    fun _ x y r _ hidle =>
      ⟨fun _ hok => ⟨exec_queues hidle rfl (encodeCircle_ok hok _ x y r),
          exec_queues hidle rfl (encodeCircle_ok hok _ x y r)⟩,
        fun _ herr => ⟨exec_raises hidle rfl (encodeCircle_error herr _ x y r),
          exec_raises hidle rfl (encodeCircle_error herr _ x y r)⟩⟩⟩

/-- Settles O15: the component's length is checked before the colour is spelled. -/
theorem setBcoQueuesBothCommands : Obligations.SetBcoQueuesBothCommands :=
  ⟨fun _ hop => by simp [decodeDescriptor, hop], fun _ _ col hidle =>
    ⟨fun hcomp _ hok => exec_queues hidle rfl (encodeSetBco_ok hcomp hok),
      fun hcomp _ herr => exec_raises hidle rfl (encodeSetBco_colour_error hcomp herr),
      fun hlong => exec_raises hidle rfl (encodeSetBco_comp_error hlong col)⟩⟩

/-- Settles O16. -/
theorem clickQueuesPressThenRelease : Obligations.ClickQueuesPressThenRelease :=
  ⟨fun _ hop => by simp [decodeDescriptor, hop], fun _ _ hidle =>
    ⟨fun hcomp => exec_queues hidle rfl (encodeClick_ok hcomp),
      fun hlong => exec_raises hidle rfl (encodeClick_error hlong)⟩⟩

/-- Settles O17. -/
theorem rawQueuesText : Obligations.RawQueuesText :=
  ⟨fun _ hop => by simp [decodeDescriptor, hop], fun _ _ hidle =>
    ⟨fun htext => exec_queues hidle rfl (encodeRaw_ok htext),
      fun hlong => exec_raises hidle rfl (encodeRaw_error hlong)⟩⟩

end Sys2Proof.Machine
end

section
/-! ENC's part of an edge outside reset (41_command_encoder.md R81, R82): it takes a command in E_IDLE, or sends or
keeps its byte in E_SEND, and so a queued command leaves whole. -/

namespace Sys2Proof.Machine

/-- Everything an edge outside reset does to ENC: its error pulse falls, and a byte is sent or the command on the
pins is offered. -/
theorem step_enc {s : State} (hrst : s.pins.rst = false) :
    ∃ t, step s = .next t ∧
      t.enc = if s.txFire then s.beginEdge.sendByte.enc else (afterCommand s.beginEdge).enc := by
  obtain ⟨t, hstep⟩ := step_answers s
  obtain ⟨d, q, _, rfl⟩ := step_of_not_rst hrst hstep
  refine ⟨_, hstep, ?_⟩
  rw [endEdge_enc, afterCommand_enc]
  refine ite_congr rfl (fun hfire => ?_) fun _ => rfl
  have hsend : ({ s.beginEdge with dec := d, pulses := q } : State).enc.est = .send := txFire_send hfire
  rw [afterCommand_send hsend]
  exact sendByte_enc_congr rfl

theorem txFire_of_send {s : State} (hrst : s.pins.rst = false) (hsend : s.enc.est = .send) :
    s.txFire = s.pins.txReady := by
  rw [State.txFire, (txValid_iff s).mpr ⟨hsend, hrst⟩, Bool.true_and]

theorem txValid_of_idle {s : State} (hidle : s.enc.est = .idle) : s.txValid = false := by
  simp [State.txValid, hidle]

theorem txFire_of_idle {s : State} (hidle : s.enc.est = .idle) : s.txFire = false := by
  rw [State.txFire, txValid_of_idle hidle, Bool.false_and]

/-- Settles O22, by `step_enc`: in E_SEND a byte is sent exactly when the transport is ready. -/
theorem encoderSendsOneByteAtATime : Obligations.EncoderSendsOneByteAtATime := by
  refine fun s hrst => ⟨fun hsend => ?_, fun hidle => ?_⟩
  · have hvalid : s.txValid = true := (txValid_iff s).mpr ⟨hsend, hrst⟩
    obtain ⟨t, hstep, henc⟩ := step_enc hrst
    refine ⟨t, hstep, hvalid, txData_of_valid hvalid, ?_, ?_⟩
    · rw [State.sentBytes, txFire_of_send hrst hsend]
    · rw [txFire_of_send hrst hsend, afterCommand_send (s := s.beginEdge) hsend] at henc
      rw [henc]
      cases s.pins.txReady with
      | false => rfl
      | true =>
        obtain ⟨hlast, hs⟩ | ⟨hmore, hs⟩ := sendByte_cases s.beginEdge
        · exact hs ▸ (if_pos hlast).symm
        · exact hs ▸ (if_neg hmore).symm
  · exact ⟨txValid_of_idle hidle, txData_of_not_valid (txValid_of_idle hidle),
      sentBytes_of_stall (txFire_of_idle hidle)⟩

/-- Settles O25, by `step_enc`: in E_IDLE no byte is sent, so the edge is the command's. -/
theorem edgeTakesOfferedCommand : Obligations.EdgeTakesOfferedCommand := by
  intro s hrst
  obtain ⟨t, hstep, henc⟩ := step_enc hrst
  refine ⟨t, hstep, fun hidle => ?_, fun hsend => ?_⟩
  · rw [txFire_of_idle hidle] at henc
    rw [henc]
    cases hvalid : s.pins.cmdValid with
    | false => simp [afterCommand, hvalid, State.beginEdge]
    | true =>
      cases hr : encEncode s.params s.pins.cmd with
      | ok L => simp [afterCommand, hvalid, hidle, hr, State.sending]
      | error e =>
        cases e <;> simp [afterCommand, hvalid, hidle, hr, State.failing, State.beginEdge, EncError.code]
  · rw [afterCommand_send (s := s.beginEdge) hsend] at henc
    rw [henc]
    split <;> simp

/-! ### A queued command leaves whole -/

/-- ENC with `n` bytes of its command still to send; with none it is idle, nothing queued (R82). -/
def Unsent (e : EncState) : Nat → Prop
  | 0 => e.est = .idle ∧ e.eq = [] ∧ e.eidx = 0
  | n + 1 => e.est = .send ∧ e.eidx + (n + 1) = e.eq.length

theorem pendingBytes_congr {s t : State} (h : s.enc = t.enc) : s.pendingBytes = t.pendingBytes := by
  simp only [State.pendingBytes, h]

theorem Unsent.sendByte {s : State} {n : Nat} (h : Unsent s.enc (n + 1)) : Unsent s.sendByte.enc n := by
  obtain ⟨hsend, hlen⟩ := h
  obtain ⟨hlast, hs⟩ | ⟨hmore, hs⟩ := sendByte_cases s <;> rw [hs]
  · obtain rfl : n = 0 := by omega
    exact ⟨rfl, rfl, rfl⟩
  · cases n with
    | zero => exact absurd hlen hmore
    | succ n => exact ⟨hsend, by show s.enc.eidx + 1 + (n + 1) = s.enc.eq.length; omega⟩

theorem Unsent.pendingBytes_eq_nil {s : State} (h : Unsent s.enc 0) : s.pendingBytes = [] := by
  obtain ⟨_, heq, _⟩ := h
  rw [State.pendingBytes, heq, List.drop_nil]

/-- An edge in E_SEND at which the transport takes the byte: one byte leaves, and the others stay pending. -/
theorem Unsent.step {s : State} {n : Nat} (h : Unsent s.enc (n + 1)) (hrst : s.pins.rst = false)
    (hready : s.pins.txReady = true) :
    ∃ t, step s = .next t ∧ Unsent t.enc n ∧ s.queuedBytes = [] ∧ s.pendingBytes = s.sentBytes ++ t.pendingBytes := by
  have ⟨hsend, hlen⟩ := h
  have hfire : s.txFire = true := (txFire_of_send hrst hsend).trans hready
  obtain ⟨t, hstep, henc⟩ := step_enc hrst
  rw [if_pos hfire] at henc
  have hsent : Unsent s.beginEdge.sendByte.enc n := Unsent.sendByte (s := s.beginEdge) h
  refine ⟨t, hstep, henc ▸ hsent, queuedBytes_of_send hsend, ?_⟩
  have hidx : s.enc.eidx < s.enc.eq.length := by omega
  rw [sentBytes_of_fire hfire, pendingBytes_congr henc]
  exact pendingBytes_sendByte (s := s.beginEdge) hidx

/-- The pins of the next cycle and those after it are the ones that the schedule lists, as far as it reaches. -/
theorem pinsAhead_of_step {s t : State} {n : Nat} (h : step s = .next t) (hn : n ≤ s.sched.length) :
    n ≤ t.pinsAhead.length ∧ t.pinsAhead.take n = s.sched.take n := by
  obtain ⟨hpins, htail⟩ := step_pins h
  rw [State.pinsAhead, hpins, htail]
  cases hs : s.sched with
  | nil =>
    obtain rfl : n = 0 := by simpa [hs] using hn
    exact ⟨Nat.zero_le _, rfl⟩
  | cons q rest => exact ⟨hs ▸ hn, rfl⟩

/-- While the transport takes a byte in each cycle, the bytes still to send leave in as many cycles. -/
theorem Unsent.runs {s : State} {n : Nat} (h : Unsent s.enc n) (hahead : n ≤ s.pinsAhead.length)
    (hpins : ∀ q ∈ s.pinsAhead.take n, q.rst = false ∧ q.txReady = true) :
    ∃ t evs, Runs n s t [] s.pendingBytes evs ∧ Unsent t.enc 0 := by
  induction n generalizing s with
  | zero => exact ⟨s, [], h.pendingBytes_eq_nil ▸ .done s, h⟩
  | succ n ih =>
    simp only [State.pinsAhead, List.take_succ_cons, List.forall_mem_cons] at hpins
    obtain ⟨⟨hrst, hready⟩, hlater⟩ := hpins
    obtain ⟨t, hstep, hunsent, hqueued, hpending⟩ := h.step hrst hready
    obtain ⟨hahead', htake⟩ := pinsAhead_of_step hstep (Nat.le_of_succ_le_succ hahead)
    obtain ⟨u, evs, hrun, hdone⟩ := ih hunsent hahead' (htake ▸ hlater)
    refine ⟨u, s.emittedEvents ++ evs, ?_, hdone⟩
    have hfirst := Runs.step hstep hrun
    rwa [hqueued, ← hpending] at hfirst

/-- Settles O23: at index 0 the whole list is still to send. -/
theorem queuedCommandLeavesWhole : Obligations.QueuedCommandLeavesWhole := by
  rintro s _ hsend hidx rfl hne hahead hpins
  obtain ⟨n, hn⟩ := Nat.exists_eq_succ_of_ne_zero (mt List.length_eq_zero_iff.mp hne)
  have hunsent : Unsent s.enc s.enc.eq.length := hn ▸ ⟨hsend, by rw [hidx, hn, Nat.zero_add]⟩
  have hwhole : s.pendingBytes = s.enc.eq := by rw [State.pendingBytes, hidx, List.drop_zero]
  exact hwhole ▸ hunsent.runs hahead hpins

end Sys2Proof.Machine
end

section
/-! One byte from any state, written out register by register, and what of it a completion leaves alone
(42_frame_decoder.md R88 to R104, R106). -/

namespace Sys2Proof.Machine

/-! ### One byte, register by register -/

/-- DEC with the byte in its buffer, or discarded where there is no room, before the run counter takes it
(42_frame_decoder.md R90, R92, R93). -/
def received (p : Config.Params) (d : DecState) (b : Byte) : DecState :=
  { d with
    st := .recv
    run := (enterFrame d).run
    acc := if Config.below p.bufCap (enterFrame d).cnt then memWrite d.acc (enterFrame d).cnt b else d.acc
    cnt := if Config.below p.bufCap (enterFrame d).cnt then (enterFrame d).cnt + 1 else (enterFrame d).cnt
    drop := (enterFrame d).drop || !Config.below p.bufCap (enterFrame d).cnt
    ovfSeen := d.ovfSeen || !Config.below p.bufCap (enterFrame d).cnt }

/-- The frame in progress that a byte goes on, or the empty one that it begins (R90). -/
theorem enterFrame_eq (d : DecState) :
    enterFrame d =
      { d with st := .recv, run := (enterFrame d).run, cnt := (enterFrame d).cnt, drop := (enterFrame d).drop } := by
  obtain ⟨st, run, acc, cnt, drop⟩ := d
  cases st with
  | idle => rfl
  | recv => rfl

theorem accumulate_enterFrame (p : Config.Params) (d : DecState) (b : Byte) :
    accumulate p (enterFrame d) b = .ok (received p d b) := by
  cases hroom : Config.below p.bufCap (enterFrame d).cnt with
  | true =>
    rw [accumulate_room hroom, received, hroom, enterFrame_eq d]
    simp
  | false =>
    rw [accumulate_full hroom, received, hroom, enterFrame_eq d]
    simp

section
variable {p : Config.Params} {d : DecState} {b : Byte}

/-- A byte that completes nothing leaves its count of 0xFF bytes in the run counter (R91). -/
theorem decStep_of_open (h3 : countTerm (enterFrame d).run b ≠ 3) :
    decStep p d b = .ok ({ received p d b with run := countTerm (enterFrame d).run b }, []) := by
  rw [decStep, accumulate_enterFrame]
  exact if_neg h3

theorem decStep_of_dropped (h3 : countTerm (enterFrame d).run b = 3) (hdrop : (received p d b).drop = true) :
    decStep p d b = .ok (toIdle (received p d b), [.frameDropped]) := by
  rw [decStep, accumulate_enterFrame]
  exact (if_pos h3).trans (complete_dropped hdrop)

/-- A frame that is not dropped is in ACC as a whole. -/
theorem received_within (hdrop : (received p d b).drop = false) :
    Config.within p.bufCap (received p d b).cnt = true := by
  have hroom : Config.below p.bufCap (enterFrame d).cnt = true := by
    simpa using (Bool.or_eq_false_iff.mp hdrop).2
  simpa [received, hroom] using below_le hroom

theorem decStep_of_delivered (h3 : countTerm (enterFrame d).run b = 3) (hdrop : (received p d b).drop = false)
    {F : List Byte} (hF : F = memPrefix (received p d b).acc ((received p d b).cnt - 3)) :
    decStep p d b =
      .ok (toIdle (classify F (delivered (received p d b) F)).1, .receivedData F :: typedEvents F) := by
  rw [decStep, accumulate_enterFrame, ← classify_events F (delivered (received p d b) F), hF]
  exact (if_pos h3).trans (complete_delivered hdrop (received_within hdrop))

end

/-- `tp_fv` by the length of the frame (42_frame_decoder.md R99). -/
theorem touchPresent_of_frame_length (F : List Byte) :
    touchPresent F[1]? F[2]? F[3]? =
      if F.length ≤ 1 then 0b000 else if F.length = 2 then 0b001 else if F.length = 3 then 0b011 else 0b111 := by
  cases F with
  | nil => rfl
  | cons t fields => simpa using touchPresent_of_length fields

/-- The events of a delivered frame by its tag (42_frame_decoder.md R95, R98). -/
theorem deliveredEvents_by_tag (F : List Byte) {isTouch isPage : Bool}
    (htouch : isTouch = decide (F.head? = some 0x65)) (hpage : isPage = decide (F.head? = some 0x66)) :
    .receivedData F :: typedEvents F =
      if isTouch then [.receivedData F, .touch F[1]? F[2]? F[3]?]
      else if isPage then [.receivedData F, .pageChanged F[1]?] else [.receivedData F] := by
  rw [← classify_events F DecState.reset]
  obtain ⟨h65, h66, hc⟩ | ⟨h65, h66, hc⟩ | ⟨h65, h66, hc⟩ := classify_by_tag F DecState.reset <;>
    rw [htouch, hpage, hc]
  · rw [decide_eq_true h65]; rfl
  · rw [decide_eq_false h65, decide_eq_true h66]; rfl
  · rw [decide_eq_false h65, decide_eq_false h66]; rfl

/-- Settles O26, by whether the byte completes the frame and whether the frame is dropped. -/
theorem ingestTakesOneByte : Obligations.IngestTakesOneByte := by
  intro s b d cnt0 run0 drop0 room acc1 cnt1 drop1 seen1 F isTouch isPage completes d' evs
  have hcnt : (enterFrame d).cnt = cnt0 := enterFrame_cnt d
  have hrun : (enterFrame d).run = run0 := enterFrame_run d
  have hdrop : (enterFrame d).drop = drop0 := enterFrame_drop d
  have hreceived : received s.params d b =
      { d with st := .recv, run := run0, acc := acc1, cnt := cnt1, drop := drop1, ovfSeen := seen1 } := by
    rw [received, hcnt, hrun, hdrop]
  have hcompletes : completes = decide (countTerm (enterFrame d).run b = 3) := by
    rw [hrun, decide_eq_decide.mpr (countTerm_eq_three run0 b), Bool.decide_and, Bool.and_comm]
  have hresult : decStep s.params d b = .ok (d', evs) ∧ pulsesOf evs =
      { rd := completes && !drop1, touch := completes && !drop1 && isTouch, page := completes && !drop1 && isPage
        drop := completes && drop1 } := by
    by_cases h3 : countTerm (enterFrame d).run b = 3
    · have hc : completes = true := hcompletes.trans (decide_eq_true h3)
      cases hd : drop1 with
      | true =>
        have hstep := decStep_of_dropped (p := s.params) (b := b) h3 (by rw [hreceived, hd])
        simp only [d', evs, hc, hd, hstep, hreceived]
        exact ⟨rfl, rfl⟩
      | false =>
        have hstep := decStep_of_delivered (p := s.params) (b := b) h3 (by rw [hreceived, hd]) (F := F)
          (by rw [hreceived])
        have hevs : evs = .receivedData F :: typedEvents F := by
          simp only [evs, hc, hd]
          exact (deliveredEvents_by_tag F rfl rfl).symm
        have hlen : F.length = cnt1 - 3 := memPrefix_length _ _
        rw [hstep, hevs, pulsesOf_delivered,
          classify_registers F _ (isTouch := isTouch) (isPage := isPage) rfl rfl, hreceived]
        simp only [d', hc, hd, ← hlen, ← touchPresent_of_frame_length F]
        exact ⟨rfl, rfl⟩
    · have hc : completes = false := hcompletes.trans (decide_eq_false h3)
      simp only [d', evs, hc, decStep_of_open h3, hreceived, hrun]
      exact ⟨rfl, rfl⟩
  exact ⟨hresult.1, (acceptByte_next hresult.1).trans (by rw [hresult.2])⟩

/-! ### Chunks and events -/

/-- Settles O36: `dec_ingest` never fails, so both parts of a chunk have a result, and the whole has theirs. -/
theorem chunkBoundariesLeaveNoTrace : Obligations.ChunkBoundariesLeaveNoTrace := by
  refine ⟨decIngest_nil, fun p d A B => ?_⟩
  obtain ⟨d1, e1, hA⟩ := decIngest_isOk p d A
  obtain ⟨d2, e2, hB⟩ := decIngest_isOk p d1 B
  exact ⟨d1, d2, e1, e2, hA, hB, decIngest_append hA hB⟩

/-- Settles O38: a byte that delivers a frame has that frame classified, by its tag. -/
theorem atMostOneTypedEventPerByte : Obligations.AtMostOneTypedEventPerByte := by
  intro p d e b evs h
  obtain ⟨hnone | hdrop, _⟩ | ⟨d1, F, _, _, rfl⟩ := decStep_events h
  · exact .inl hnone
  · exact .inr (.inl hdrop)
  · refine .inr (.inr ⟨F, ?_⟩)
    obtain ⟨h65, _, hc⟩ | ⟨_, h66, hc⟩ | ⟨_, _, hc⟩ := classify_by_tag F (delivered d1 F) <;> rw [hc]
    · exact .inr (.inl ⟨h65, rfl⟩)
    · exact .inr (.inr ⟨h66, rfl⟩)
    · exact .inl rfl

/-! ### After a completion -/

/-- A byte that emits an event completes a frame, so DEC is idle after it with an empty buffer (R96). -/
theorem decStep_empties {p : Config.Params} {d e : DecState} {b : Byte} {evs : List DecEvent}
    (h : decStep p d b = .ok (e, evs)) (hevs : evs ≠ []) :
    e.st = .idle ∧ e.cnt = 0 ∧ e.run = 0 ∧ e.drop = false := by
  obtain ⟨e', evs', heq, _, hempty, _⟩ := completionExactlyAtThirdTerminatorByte p d b
  cases h.symm.trans heq
  exact hempty hevs

/-- The first byte after IDLE counts from 0, so there are not two 0xFF bytes yet. -/
theorem countTerm_zero_ne_two (b : Byte) : countTerm 0 b ≠ 2 := by
  unfold countTerm
  split <;> decide

/-- Settles O39: the first byte after a completion finds IDLE, and the second at most one counted 0xFF byte. -/
theorem completionsAreThreeBytesApart : Obligations.CompletionsAreThreeBytesApart := by
  intro p d e b b1 b2 evs h hevs
  have hidle : e.st = .idle := (decStep_empties h hevs).1
  have hfirst : countTerm (enterFrame e).run b1 ≠ 3 := fun h3 => by
    cases hidle.symm.trans ((completes_iff e b1).mp h3).1
  have h1 := decStep_of_open (p := p) hfirst
  rw [enterFrame_run, if_pos hidle] at h1
  have hsecond : countTerm (enterFrame { received p e b1 with run := countTerm 0 b1 }).run b2 ≠ 3 := fun h3 =>
    countTerm_zero_ne_two b1 ((completes_iff _ b2).mp h3).2.1
  obtain ⟨f, h2, _⟩ := decStep_goes_on hsecond p
  exact ⟨f, decIngest_cons h1 (decIngest_cons h2 (decIngest_nil p f))⟩

/-- Settles O42: without a delivery the event registers stay, and the completion empties the buffer. -/
theorem droppedFrameKeepsEventRegisters : Obligations.DroppedFrameKeepsEventRegisters := by
  intro p d e b h
  obtain ⟨hst, hcnt, hrun, hdrop⟩ := decStep_empties h (List.cons_ne_nil _ _)
  obtain ⟨_, st, run, acc, cnt, drop, seen, rfl⟩ | ⟨_, _, _, _, hevs⟩ := decStep_events h
  · obtain rfl : st = .idle := hst
    obtain rfl : cnt = 0 := hcnt
    obtain rfl : run = 0 := hrun
    obtain rfl : drop = false := hdrop
    rfl
  · cases hevs

/-! ### A frame too long -/

/-- Settles O33: the frame completes with its terminator, and a frame longer than `FRAME_MAX` completes as dropped. -/
theorem overlongFrameIsDropped : Obligations.OverlongFrameIsDropped := by
  intro s F hlegal hwf hidle hframe hlong
  obtain ⟨e, acc, hbody, hstep, hacc⟩ := decIngest_framable hlegal hwf hidle hframe
  rw [afterFrame, frameEvents, hlong] at hstep
  have hall := acceptBytes_completion hbody hstep (decIngest_nil s.params _)
  rw [List.append_assoc] at hall
  exact ⟨_, (exec_decodeFrame F s).trans hall, rfl, hacc.read, rfl, rfl, rfl, rfl, rfl⟩

end Sys2Proof.Machine
end

section
/-! The edge in reset (70_reset_and_hazards.md R121): no port shakes hands (10_state.md R26, R28), so nothing moves on
any of them, and the registers take their reset values. -/

namespace Sys2Proof.Machine

section
variable {s : State}

theorem rxReady_of_rst (hrst : s.pins.rst = true) : s.rxReady = false := by
  rw [State.rxReady, hrst, Bool.not_true]

theorem cmdReady_of_rst (hrst : s.pins.rst = true) : s.cmdReady = false := by
  rw [State.cmdReady, hrst, Bool.not_true, Bool.and_false]

theorem txValid_of_rst (hrst : s.pins.rst = true) : s.txValid = false := by
  rw [State.txValid, hrst, Bool.not_true, Bool.and_false]

theorem txFire_of_not_valid (h : s.txValid = false) : s.txFire = false := by
  rw [State.txFire, h, Bool.false_and]

/-- No command is taken while `cmd_ready` = 0 (10_state.md R28). -/
theorem queuedBytes_of_not_ready (h : s.cmdReady = false) : s.queuedBytes = [] := by
  simp [State.queuedBytes, h]

end

/-- The step that `step_of_rst` describes is taken: an edge in reset always answers. -/
theorem step_eq_of_rst {s : State} (hrst : s.pins.rst = true) : step s = .next s.resetEdge.nextCycle := by
  obtain ⟨_, hs⟩ | ⟨hr, _⟩ := step_cases s
  · exact hs
  · cases hrst.symm.trans hr

/-- Settles O44: the registers are those of `resetEdge`, and a port whose handshake output is 0 moves nothing. -/
theorem resetEdgeLoadsResetValues : Obligations.ResetEdgeLoadsResetValues := by
  intro s hrst
  have hcmd : s.cmdReady = false := cmdReady_of_rst hrst
  have htx : s.txValid = false := txValid_of_rst hrst
  have hsent : s.sentBytes = [] := sentBytes_of_stall (txFire_of_not_valid htx)
  have hqueued : s.queuedBytes = [] := queuedBytes_of_not_ready hcmd
  exact ⟨_, step_eq_of_rst hrst, rfl, rfl, rfl, rfl, rfl, rfl, hsent, hqueued, emittedEvents_of_rst hrst,
    rxReady_of_rst hrst, hcmd, htx⟩

end Sys2Proof.Machine
end
